-- ==== Sys2Proof/Word.lean ====
section
/-! DEFINITION. The one value representation of the machine (spec/00_scope.md R14): a bit vector is a
fixed-length ordered sequence of binary digits, position 0 first. The widths are parameters of the configuration
(R4), so a vector is a list of digits whose length is its width; that every stored vector has its slot's width is
an invariant (R32), stated in Safety.lean and kept by every step. -/

namespace Sys2Proof

/-- R14: a bit vector; the head of the list is position 0, the first and most significant digit. -/
abbrev Bits := List Bool

/-- R15: the vector of `n` zero digits. -/
def zeros (n : Nat) : Bits := List.replicate n false

end Sys2Proof
end

