-- ==== Sys2Proof/Machine/Bits.lean ====
section
/-! DEFINITION. The primitive operations on bit vectors (spec/00_scope.md R15, R16, R17). -/

namespace Sys2Proof

/-- R16: the unsigned value, most significant digit first: digit `p` of `n` weighs `2^(n-1-p)`. -/
def uint : Bits → Nat
  | [] => 0
  | b :: v => b.toNat * 2 ^ v.length + uint v

/-- R16: `bits_n(k)`, the vector of width `n` whose value is `k`, for `k < 2^n` (the low `n` digits of a larger
`k`, which no caller passes). -/
def bitsN : Nat → Nat → Bits
  | 0, _ => []
  | n + 1, k => (k / 2 ^ n % 2 == 1) :: bitsN n k

/-- R15: `len` digits from position `off` on. -/
def slice (v : Bits) (off len : Nat) : Bits := (v.drop off).take len

/-- R17: `v[hi:lo]` in conventional bit numbers, bit 0 the least significant: `hi + 1 - lo` digits. The top is an integer
because the empty range that ends at bit 0 is `v[-1:0]`. -/
def bitRange (v : Bits) (hi : Int) (lo : Nat) : Bits :=
  slice v (v.length - (hi + 1).toNat) ((hi + 1).toNat - lo)

end Sys2Proof
end

