-- ==== Sys2Proof/Config.lean ====
section
/-! DEFINITION. The configuration (spec/00_scope.md R4, R5, R6): six scalars and the catalog of instruction shapes,
the fifteen kinds and their field names (spec/30_encoding.md R69), and the two named configurations of R20. The
machine has no free value: the spec settles every value an instruction writes. -/

namespace Sys2Proof

/-- R69: the fifteen instruction kinds, in the order of the spec's table. The kind, not the mnemonic and not the
field names, selects the behaviour (spec/40_execution_cycle.md R85). -/
inductive Kind where
  | nop | stl | ld | jmpc | mul | st | decr | jmp | push | pop | ldra | ret | pushra | popra | mov
deriving DecidableEq, Repr

/-- R69: the eight field names. A shape with any other field name is not well formed (R9), so the model gives it no
representation (assumption log 4). -/
inductive FieldName where
  | memoryAddress | registerAddress | firstOperand | secondOperand
  | firstRegister | secondRegister | commandAddress | literal
deriving DecidableEq, Repr

/-- R5, R9: an instruction shape: its mnemonic, its kind tag and its fields in declared order with their widths. -/
structure Shape where
  name   : List Char
  kind   : Kind
  fields : List (FieldName × Nat)
deriving DecidableEq, Repr

/-- R4, R5: the six scalars and the catalog. The opcode value of a shape is its position in the catalog. -/
structure Config where
  /-- log2 of the number of program-memory slots -/
  commandsSize : Nat
  /-- `W`: bit width of one instruction word -/
  commandSize  : Nat
  /-- `C`: bit width of the opcode field -/
  copSize      : Nat
  /-- log2 of the number of data-memory cells -/
  memorySize   : Nat
  /-- log2 of the number of registers -/
  registerFile : Nat
  /-- `L`: bit width of a cell, a register, a stack entry, the return-address cell and a literal -/
  literalSize  : Nat
  catalog      : List Shape
deriving DecidableEq, Repr

/-- R6: `N`, the number of program-memory slots. -/
def Config.numSlots (c : Config) : Nat := 2 ^ c.commandsSize

/-- R6: `M`, the number of data-memory cells. -/
def Config.numCells (c : Config) : Nat := 2 ^ c.memorySize

/-- R6: `NR`, the number of registers. -/
def Config.numRegs (c : Config) : Nat := 2 ^ c.registerFile

/-- R69: the field names a shape of each kind has, in the order the spec lists them. -/
def Kind.fieldNames : Kind → List FieldName
  | .nop => []
  | .stl => [.memoryAddress, .literal]
  | .ld => [.memoryAddress, .registerAddress]
  | .jmpc => [.commandAddress]
  | .mul => [.firstOperand, .secondOperand, .registerAddress]
  | .st => [.memoryAddress, .registerAddress]
  | .decr => [.registerAddress]
  | .jmp => [.commandAddress]
  | .push => [.registerAddress]
  | .pop => [.registerAddress]
  | .ldra => [.literal]
  | .ret => []
  | .pushra => []
  | .popra => []
  | .mov => [.firstRegister, .secondRegister]

/-- R20, R70: the spec's fifteen-entry configuration `REF`. -/
def refConfig : Config where
  commandsSize := 4
  commandSize  := 16
  copSize      := 4
  memorySize   := 4
  registerFile := 2
  literalSize  := 8
  catalog :=
    [ ⟨['N', 'O', 'P'], .nop, []⟩,
      ⟨['S', 'T', 'L'], .stl, [(.memoryAddress, 4), (.literal, 8)]⟩,
      ⟨['L', 'D'], .ld, [(.memoryAddress, 4), (.registerAddress, 2)]⟩,
      ⟨['J', 'M', 'P', 'C'], .jmpc, [(.commandAddress, 4)]⟩,
      ⟨['M', 'U', 'L'], .mul, [(.firstOperand, 2), (.secondOperand, 2), (.registerAddress, 2)]⟩,
      ⟨['S', 'T'], .st, [(.memoryAddress, 4), (.registerAddress, 2)]⟩,
      ⟨['D', 'E', 'C', 'R'], .decr, [(.registerAddress, 2)]⟩,
      ⟨['J', 'M', 'P'], .jmp, [(.commandAddress, 4)]⟩,
      ⟨['P', 'U', 'S', 'H'], .push, [(.registerAddress, 2)]⟩,
      ⟨['P', 'O', 'P'], .pop, [(.registerAddress, 2)]⟩,
      ⟨['L', 'D', 'R', 'A'], .ldra, [(.literal, 8)]⟩,
      ⟨['R', 'E', 'T'], .ret, []⟩,
      ⟨['P', 'U', 'S', 'H', 'R', 'A'], .pushra, []⟩,
      ⟨['P', 'O', 'P', 'R', 'A'], .popra, []⟩,
      ⟨['M', 'O', 'V'], .mov, [(.firstRegister, 2), (.secondRegister, 2)]⟩ ]

/-- R20, R71: the source document's own three-entry configuration `EX8`. -/
def ex8Config : Config where
  commandsSize := 3
  commandSize  := 8
  copSize      := 2
  memorySize   := 2
  registerFile := 2
  literalSize  := 4
  catalog :=
    [ ⟨['N', 'O', 'P'], .nop, []⟩,
      ⟨['D', 'E', 'C', 'R'], .decr, [(.registerAddress, 2)]⟩,
      ⟨['J', 'M', 'P'], .jmp, [(.commandAddress, 3)]⟩ ]

end Sys2Proof
end

