-- ==== Sys2Proof/Syntax.lean ====
section
/-! DEFINITION. The instructions: one constructor per instruction of spec/opcode_table.json (its `EX8` rows NOP, DECR
and JMP are the same instructions under another configuration). Index fields are the natural numbers `uint` of the
decoded field, the literal field is the vector itself (spec/30_encoding.md R64). An unrecognised opcode value is no
instruction: the decoder reports it by name (R62) and the step gives it its effect (R90). -/

namespace Sys2Proof

/-- One constructor per instruction kind of R69; the operands in the order the spec names the fields. -/
inductive Instr where
  | nop
  | stl (memoryAddress : Nat) (literal : Bits)
  | ld (memoryAddress registerAddress : Nat)
  | jmpc (commandAddress : Nat)
  | mul (firstOperand secondOperand registerAddress : Nat)
  | st (memoryAddress registerAddress : Nat)
  | decr (registerAddress : Nat)
  | jmp (commandAddress : Nat)
  | push (registerAddress : Nat)
  | pop (registerAddress : Nat)
  | ldra (literal : Bits)
  | ret
  | pushra
  | popra
  | mov (firstRegister secondRegister : Nat)
deriving DecidableEq, Repr

/-- The kind of an instruction (R69). -/
def Instr.kind : Instr → Kind
  | .nop => .nop
  | .stl _ _ => .stl
  | .ld _ _ => .ld
  | .jmpc _ => .jmpc
  | .mul _ _ _ => .mul
  | .st _ _ => .st
  | .decr _ => .decr
  | .jmp _ => .jmp
  | .push _ => .push
  | .pop _ => .pop
  | .ldra _ => .ldra
  | .ret => .ret
  | .pushra => .pushra
  | .popra => .popra
  | .mov _ _ => .mov

/-- The value of an index field of an instruction (R64); `none` for a field it does not have and for the literal. -/
def Instr.indexField : Instr → FieldName → Option Nat
  | .stl a _, .memoryAddress => some a
  | .ld a _, .memoryAddress => some a
  | .ld _ r, .registerAddress => some r
  | .jmpc t, .commandAddress => some t
  | .mul a _ _, .firstOperand => some a
  | .mul _ b _, .secondOperand => some b
  | .mul _ _ d, .registerAddress => some d
  | .st a _, .memoryAddress => some a
  | .st _ r, .registerAddress => some r
  | .decr r, .registerAddress => some r
  | .jmp t, .commandAddress => some t
  | .push r, .registerAddress => some r
  | .pop r, .registerAddress => some r
  | .mov a _, .firstRegister => some a
  | .mov _ b, .secondRegister => some b
  | _, _ => none

/-- The literal field of an instruction, the raw vector (R64); `none` where it has none. -/
def Instr.literalField : Instr → Option Bits
  | .stl _ v => some v
  | .ldra v => some v
  | _ => none

end Sys2Proof
end

