-- ==== Sys2Proof/WellFormed.lean ====
section
/-! DEFINITION. Well-formed configurations, `WF(cfg)` of spec/00_scope.md R7 to R11, and the instructions a
configuration can express at a catalog position (spec/30_encoding.md R67). -/

namespace Sys2Proof

/-- The sum of a shape's field widths. -/
def Shape.fieldBits (s : Shape) : Nat := (s.fields.map (·.2)).sum

/-- R7, WF-cop: every catalog position is expressible in the opcode field. -/
def Config.wfCop (c : Config) : Bool := c.catalog.length ≤ 2 ^ c.copSize

/-- R8, WF-fit, for one shape: opcode and fields fit in a word. -/
def Config.wfFit (c : Config) (s : Shape) : Bool := c.copSize + s.fieldBits ≤ c.commandSize

/-- R9, WF-kind, for one shape: its field names are, as a set, the kind's; none occurs twice; every width is at
least 1. -/
def Shape.wfKind (s : Shape) : Bool :=
  decide ((s.fields.map (·.1)).Nodup)
    && (s.fields.map (·.1)).all (fun f => s.kind.fieldNames.contains f)
    && s.kind.fieldNames.all (fun f => (s.fields.map (·.1)).contains f)
    && s.fields.all (fun f => 1 ≤ f.2)

/-- R10, WF-literal, for one shape: a `literal` field has width exactly `literal_size`. -/
def Config.wfLiteral (c : Config) (s : Shape) : Bool :=
  s.fields.all (fun f => f.1 != .literal || f.2 == c.literalSize)

/-- R11, WF-ranges. -/
def Config.wfRanges (c : Config) : Bool :=
  1 ≤ c.commandSize && 1 ≤ c.literalSize && c.copSize ≤ c.commandSize

/-- The conditions R8, R9 and R10 on one shape of the catalog. -/
def Config.wfShape (c : Config) (s : Shape) : Bool := c.wfFit s && s.wfKind && c.wfLiteral s

/-- `WF(cfg)`: the conjunction of R7 to R11. A configuration that fails it is refused. -/
def Config.wf (c : Config) : Bool := c.wfCop && c.wfRanges && c.catalog.all c.wfShape

/-- One field of a shape can hold the instruction's value for it: an index is below `2^width` (R67), a literal has
the field's width (R10, R64). -/
def Instr.fieldFits (i : Instr) (f : FieldName × Nat) : Bool :=
  match f.1 with
  | .literal => match i.literalField with
    | some v => v.length == f.2
    | none => false
  | n => match i.indexField n with
    | some k => k < 2 ^ f.2
    | none => false

/-- The instruction is expressible at catalog position `p` of `c`: the shape there has its kind and every field can
hold its value. -/
def Instr.wf (c : Config) (p : Nat) (i : Instr) : Bool :=
  match c.catalog[p]? with
  | some s => decide (s.kind = i.kind) && s.fields.all i.fieldFits
  | none => false

end Sys2Proof
end

