-- ==== Sys2Proof/Decode.lean ====
section
/-! DEFINITION. The decoder (spec/30_encoding.md R61 to R66): opcode extract, catalog lookup, field-slice matrix; and
after it the encoder (R67). The decoder is total and pure: every word decodes, an opcode value at or beyond the
catalog's length to `unrecognised`. -/

namespace Sys2Proof

/-- R61: the first `C` digits of the word as an unsigned integer. -/
def opcode (c : Config) (word : Bits) : Nat := uint (slice word 0 c.copSize)

/-- R63: the offset and width of each field of a shape, the first field at position `off`. -/
def fieldSlices : Nat → List (FieldName × Nat) → List (FieldName × Nat × Nat)
  | _, [] => []
  | off, (n, w) :: fs => (n, off, w) :: fieldSlices (off + w) fs

/-- R63: the field-slice matrix `FSM`: the slices of the shape at catalog position `p`; it depends on the
configuration alone. -/
def fieldSliceMatrix (c : Config) (p : Nat) : List (FieldName × Nat × Nat) :=
  match c.catalog[p]? with
  | some s => fieldSlices c.copSize s.fields
  | none => []

/-- R63: the decoded field vectors of a word, one slice per row of the matrix. -/
def cutFields (word : Bits) (m : List (FieldName × Nat × Nat)) : List (FieldName × Bits) :=
  m.map fun e => (e.1, slice word e.2.1 e.2.2)

/-- R37, R66: the decoder's outputs. -/
inductive RawDecode where
  /-- R62: the opcode value indexes no catalog entry; there are no fields -/
  | unrecognised (op : Nat)
  /-- R62, R63: the opcode value, the kind of the catalog entry, the field vectors in declared order -/
  | recognised (op : Nat) (kind : Kind) (fields : List (FieldName × Bits))
deriving DecidableEq, Repr

/-- R66: `decode(cfg, word)`. -/
def rawDecode (c : Config) (word : Bits) : RawDecode :=
  match c.catalog[opcode c word]? with
  | none => .unrecognised (opcode c word)
  | some s => .recognised (opcode c word) s.kind (cutFields word (fieldSliceMatrix c (opcode c word)))

/-- `F.<name>` (R63): the decoded vector of the field of that name. -/
def fieldVector : List (FieldName × Bits) → FieldName → Option Bits
  | [], _ => none
  | e :: fs, n => if n = e.1 then some e.2 else fieldVector fs n

/-- R64: an index field is used as `uint(F.<name>)`. -/
def indexValue (fs : List (FieldName × Bits)) (n : FieldName) : Option Nat := (fieldVector fs n).map uint

/-- R69: the instruction of a kind with the decoded fields; `none` where a field the kind's rule uses is missing,
which R9 rules out. -/
def Instr.ofFields (fs : List (FieldName × Bits)) : Kind → Option Instr
  | .nop => some .nop
  | .stl => do return .stl (← indexValue fs .memoryAddress) (← fieldVector fs .literal)
  | .ld => do return .ld (← indexValue fs .memoryAddress) (← indexValue fs .registerAddress)
  | .jmpc => do return .jmpc (← indexValue fs .commandAddress)
  | .mul => do
    return .mul (← indexValue fs .firstOperand) (← indexValue fs .secondOperand) (← indexValue fs .registerAddress)
  | .st => do return .st (← indexValue fs .memoryAddress) (← indexValue fs .registerAddress)
  | .decr => do return .decr (← indexValue fs .registerAddress)
  | .jmp => do return .jmp (← indexValue fs .commandAddress)
  | .push => do return .push (← indexValue fs .registerAddress)
  | .pop => do return .pop (← indexValue fs .registerAddress)
  | .ldra => do return .ldra (← fieldVector fs .literal)
  | .ret => some .ret
  | .pushra => some .pushra
  | .popra => some .popra
  | .mov => do return .mov (← indexValue fs .firstRegister) (← indexValue fs .secondRegister)

/-- What a word decodes to, with the instruction put together. -/
inductive Decoded where
  /-- R62: an opcode value at or beyond the catalog's length -/
  | unrecognised (op : Nat)
  /-- a word of the instruction at catalog position `op` -/
  | recognised (op : Nat) (i : Instr)
  /-- the catalog entry lacks a field of its kind: only in a configuration that R9 refuses -/
  | malformed (op : Nat)
deriving DecidableEq, Repr

/-- R66 with R64: the decoder, from a word to an instruction. -/
def decode (c : Config) (word : Bits) : Decoded :=
  match rawDecode c word with
  | .unrecognised op => .unrecognised op
  | .recognised op k fs => match Instr.ofFields fs k with
    | some i => .recognised op i
    | none => .malformed op

/-! ## The encoder -/

/-- R67: each argument in its field's width, in declared order. -/
def encodeFields : List (FieldName × Nat) → List Nat → Bits
  | (_, w) :: fs, a :: as => bitsN w a ++ encodeFields fs as
  | _, _ => []

/-- R67: opcode and fields, without the pad. -/
def encodeBody (c : Config) (p : Nat) (s : Shape) (args : List Nat) : Bits :=
  bitsN c.copSize p ++ encodeFields s.fields args

/-- R65, R67: a vector filled with zero digits up to the width of a word. -/
def padWord (c : Config) (v : Bits) : Bits := v ++ zeros (c.commandSize - v.length)

/-- R67: `encode(cfg, p, args)`; `none` for a position outside the catalog. -/
def encodeWord (c : Config) (p : Nat) (args : List Nat) : Option Bits :=
  match c.catalog[p]? with
  | some s => some (padWord c (encodeBody c p s args))
  | none => none

/-- The argument of an instruction for a field (R67): the index, or the value of the literal. -/
def Instr.arg (i : Instr) (f : FieldName) : Nat :=
  match f with
  | .literal => (i.literalField.map uint).getD 0
  | n => (i.indexField n).getD 0

/-- R67: the word of an instruction at catalog position `p`. -/
def encode (c : Config) (p : Nat) (i : Instr) : Option Bits :=
  match c.catalog[p]? with
  | some s => encodeWord c p (s.fields.map fun f => i.arg f.1)
  | none => none

/-! ## The words of the opcode table -/

/-- The configuration whose rows of spec/opcode_table.json have `nbits` bits: `REF` for its 16-bit rows, `EX8` for
its 8-bit rows. -/
def tableConfig (nbits : Nat) : Option Config :=
  if nbits = refConfig.commandSize then some refConfig
  else if nbits = ex8Config.commandSize then some ex8Config
  else none

/-- What the decoder reads from the word whose bits, numbered as the table numbers them (R17), are `w`. -/
def decodeTableWord (nbits w : Nat) : Option Instr :=
  match tableConfig nbits with
  | none => none
  | some c => match decode c (bitsN nbits w) with
    | .recognised _ i => some i
    | _ => none

end Sys2Proof
end

