-- ==== Sys2Proof/Machine/Flags.lean ====
section
/-! DEFINITION. The machine has no flags, no condition codes and no predicates (spec/10_state.md R30): overflow and
wrap are silent. What stands here is what the spec computes instead: the two arithmetic results and the one
comparison (spec/42_register_ops.md R97). All integers are unsigned (spec/00_scope.md R16). -/

namespace Sys2Proof.Machine

/-- R94: `bits_L((uint u * uint v) mod 2^L)`: the low `L` digits of the product (assumption log 6). -/
def product (L : Nat) (u v : Bits) : Bits := bitsN L (uint u * uint v % 2 ^ L)

/-- R95: `bits_L((uint v + 2^L - 1) mod 2^L)`: one less, zero wraps to all ones. -/
def decrement (L : Nat) (v : Bits) : Bits := bitsN L ((uint v + 2 ^ L - 1) % 2 ^ L)

/-- R98: the guard of the conditional jump: strictly greater than one, unsigned. -/
def guardTaken (v : Bits) : Bool := 1 < uint v

end Sys2Proof.Machine
end

