-- ==== Sys2Proof/Machine/State.lean ====
section
/-! DEFINITION. The machine state (spec/10_state.md R21), the faults (spec/60_exceptions.md R109), the refusals, and
the state after reset (R35, spec/70_reset_and_hazards.md R124). -/

namespace Sys2Proof.Machine

/-- R111: the two spaces an instruction indexes. -/
inductive Space where
  | memory
  | registers
deriving DecidableEq, Repr

/-- R109: the three faults of the engine with what each records. A step that raises one sets `status` to it and changes
nothing else (R113); a step asked of a machine in that status answers with it as `Outcome.fault`, because the engine
executes no further step. -/
inductive Fault where
  /-- R110: POP or POPRA with an empty stack, in slot `slot`. Safe: the spec's own fatal error. -/
  | emptyStack (slot : Nat)
  /-- R111: a decoded index not below the size of its space, in slot `slot`. Safe: the machine stops where the source
  calls the behaviour undefined. -/
  | indexOutOfRange (slot : Nat) (space : Space) (index : Nat)
  /-- R112: the instruction pointer `pc` is greater than the number of slots at the start of a step. Safe: the machine
  stops where the source says nothing. -/
  | fetchOutOfRange (pc : Nat)
deriving DecidableEq, Repr

/-- Why a step has no meaning. -/
inductive Refusal where
  /-- An instruction without a meaning: none is left. Safe. -/
  | notModelled (mnemonic : String)
  /-- Raised by the step of a state whose configuration fails `WF(cfg)` (R7 to R11): no machine is built from such a
  configuration. Safe: no claim is made about it. -/
  | illFormedConfig
deriving DecidableEq, Repr

/-- R31: the engine status. -/
inductive Status where
  | running
  | halted
  | fault (cause : Fault)
deriving DecidableEq, Repr

/-- One listed element of a memory: its index and its digits (spec/20_memory.md R43: the unit is a whole element). -/
abbrev Cell := Nat × Bits

/-- A memory: the elements that differ from what an unlisted index reads as, indices strictly rising. -/
abbrev Memory := List Cell

/-- R21: the machine state. `cfg` is the configuration: fixed for a machine (R13), changed by nothing but a new `init`
(R124), and held here because the step takes no other argument (assumption log 1). -/
structure State where
  cfg       : Config
  /-- R24: program memory, `N` slots of `W` bits -/
  commands  : Memory
  /-- R25: data memory, `M` cells of `L` bits -/
  memory    : Memory
  /-- R22: `NR` registers of `L` bits, register `k` at position `k` -/
  registers : List Bits
  /-- R26: the stack, bottom first, the last element the top -/
  stack     : List Bits
  /-- R27: the return-address cell, `L` bits -/
  ra        : Bits
  /-- R29: the load cursor `command_idx` -/
  cursor    : Nat
  /-- R28: the instruction pointer `i`, counting whole slots, without wrap-around -/
  pc        : Nat
  /-- R31: the engine status -/
  status    : Status
deriving DecidableEq, Repr

/-- R35, R124: the state after `init` under a configuration: every slot, cell and register zero, the stack empty, `ra`
zero, the cursor 0, the status HALTED; `i` is 0 (assumption log 3). -/
def State.init (c : Config) : State where
  cfg       := c
  commands  := []
  memory    := []
  registers := List.replicate c.numRegs (zeros c.literalSize)
  stack     := []
  ra        := zeros c.literalSize
  cursor    := 0
  pc        := 0
  status    := .halted

/-- The machine right after reset, under the configuration `REF` (assumption log 2). -/
def State.reset : State := State.init refConfig

end Sys2Proof.Machine
end

