-- ==== Sys2Proof/Machine/Ops.lean ====
section
/-! DEFINITION. The named operations over the state: reading and writing a memory in its canonical form, the register
file, the stack, `ra`, the instruction pointer, and raising a fault (spec/60_exceptions.md R113), the one thing that
stands here for taking an exception: there is no trap entry and no trap return (R116, R117). -/

namespace Sys2Proof.Machine

/-! ## Memories -/

/-- What an element that is not listed reads as: `init` fills every slot and cell with zero (R124). -/
def Memory.unlisted (w : Nat) : Bits := zeros w

/-- The element at index `a` of a memory of `w`-bit elements. -/
def Memory.read (w : Nat) : Memory → Nat → Bits
  | [], _ => Memory.unlisted w
  | e :: m, a => if a = e.1 then e.2 else Memory.read w m a

/-- List an element, indices kept rising. -/
def Memory.insert (a : Nat) (v : Bits) : Memory → Memory
  | [] => [(a, v)]
  | e :: m => if a < e.1 then (a, v) :: e :: m else if a = e.1 then (a, v) :: m else e :: Memory.insert a v m

/-- List no element at index `a`. -/
def Memory.erase (m : Memory) (a : Nat) : Memory := m.filter fun e => e.1 != a

/-- Write one element; writing what an unlisted element reads as removes the entry. -/
def Memory.write (w : Nat) (m : Memory) (a : Nat) (v : Bits) : Memory :=
  if v = Memory.unlisted w then m.erase a else m.insert a v

/-- Indices strictly rising. -/
def Memory.rising : Memory → Bool
  | [] => true
  | e :: m => m.all (fun f => e.1 < f.1) && Memory.rising m

/-- One entry of a memory of `n` elements of `w` bits: in range, of the right width (R32), not what an unlisted
element reads as. -/
def Memory.entryOk (w n : Nat) (e : Cell) : Bool := e.1 < n && e.2.length == w && e.2 != Memory.unlisted w

/-- The canonical form of a memory of `n` elements of `w` bits. -/
def Memory.wf (w n : Nat) (m : Memory) : Bool := m.rising && m.all (Memory.entryOk w n)

/-! ## The storage of a state -/

/-- Data-memory cell `a`. -/
def State.cell (s : State) (a : Nat) : Bits := Memory.read s.cfg.literalSize s.memory a

/-- Data-memory cell `a` replaced, no other cell changed. -/
def State.setCell (s : State) (a : Nat) (v : Bits) : State :=
  { s with memory := Memory.write s.cfg.literalSize s.memory a v }

/-- Program-memory slot `a`. -/
def State.slot (s : State) (a : Nat) : Bits := Memory.read s.cfg.commandSize s.commands a

/-- Register `k`. -/
def State.reg (s : State) (k : Nat) : Bits := s.registers.getD k (zeros s.cfg.literalSize)

/-- Register `k` replaced, no other register changed (R23: none is hard-wired). -/
def State.setReg (s : State) (k : Nat) (v : Bits) : State := { s with registers := s.registers.set k v }

/-- R108: `push(v)`: `v` is the new top. -/
def State.pushed (s : State) (v : Bits) : State := { s with stack := s.stack ++ [v] }

/-- R108: the stack without its top. -/
def State.dropTop (s : State) : State := { s with stack := s.stack.dropLast }

/-- `ra <- v`. -/
def State.setRa (s : State) (v : Bits) : State := { s with ra := v }

/-- R86: `pc <- i + 1`, without wrap-around. -/
def State.advance (s : State) : State := { s with pc := s.pc + 1 }

/-- `pc <- t` (R102: any natural number). -/
def State.jump (s : State) (t : Nat) : State := { s with pc := t }

/-! ## Status -/

/-- R113: raising a fault: `status <- FAULT(cause)` and nothing else changes; `i` stays at the faulting instruction. -/
def State.raise (s : State) (f : Fault) : State := { s with status := .fault f }

/-- R83: `status <- HALTED` and nothing else changes. -/
def State.halt (s : State) : State := { s with status := .halted }

/-- R128: the run entry: `i <- 0`, `status <- RUNNING`, nothing else changes. -/
def State.startRun (s : State) : State := { s with pc := 0, status := .running }

/-- R109: the code of a fault. -/
def Fault.code : Fault → Nat
  | .emptyStack _ => 1
  | .indexOutOfRange _ _ _ => 2
  | .fetchOutOfRange _ => 3

/-- R109: the status output visible to the host; 0 where there is no fault. -/
def Status.code : Status → Nat
  | .running => 0
  | .halted => 0
  | .fault f => f.code

/-- R87, R113: how a step ends: with all of its writes, or, on a fault, with none of them and the fault in
`status`. -/
def finish (s : State) (r : Except Fault State) : Host.Outcome State Fault Refusal :=
  match r with
  | .ok t => .next t
  | .error f => .next (s.raise f)

end Sys2Proof.Machine
end

