-- ==== Sys2Proof/Machine/Operands.lean ====
section
/-! DEFINITION. The operand forms: every access of an instruction to a register, a memory cell or the stack, with the
check that the spec makes when the index is used (spec/20_memory.md R47, R48; spec/44_stack.md R108). An error is the
fault the access raises; the instructions chain the accesses in the order of their pseudocode, so that the first one
raised is the one reported (spec/60_exceptions.md R114). -/

namespace Sys2Proof.Machine

/-- R48: a register index is used: it must be below `NR`. -/
def checkReg (s : State) (k : Nat) : Except Fault Unit :=
  if k < s.cfg.numRegs then .ok () else .error (.indexOutOfRange s.pc .registers k)

/-- R47: a memory index is used: it must be below `M`. -/
def checkCell (s : State) (a : Nat) : Except Fault Unit :=
  if a < s.cfg.numCells then .ok () else .error (.indexOutOfRange s.pc .memory a)

/-- R48: `x[k]` as a source. -/
def readReg (s : State) (k : Nat) : Except Fault Bits := do
  checkReg s k
  return s.reg k

/-- R48: `x[k] <- v`. -/
def writeReg (s : State) (k : Nat) (v : Bits) : Except Fault State := do
  checkReg s k
  return s.setReg k v

/-- R47: `MemRead(a)`. -/
def memRead (s : State) (a : Nat) : Except Fault Bits := do
  checkCell s a
  return s.cell a

/-- R47: `MemWrite(a, v)`. -/
def memWrite (s : State) (a : Nat) (v : Bits) : Except Fault State := do
  checkCell s a
  return s.setCell a v

/-- R108: `pop()`: the top and the state without it, or `EmptyStack`. -/
def popTop (s : State) : Except Fault (Bits × State) :=
  match s.stack.getLast? with
  | some v => .ok (v, s.dropTop)
  | none => .error (.emptyStack s.pc)

end Sys2Proof.Machine
end

