-- ==== Sys2Proof/Machine/ControlTransfer.lean ====
section
/-! DEFINITION. The control transfers JMPC, JMP, RET and the load of the return-address cell, LDRA
(spec/43_control_transfer.md). Targets are absolute slot indices; none is checked here (R102): a target above `N`
faults at the next fetch. -/

namespace Sys2Proof.Machine

/-- R98: jump to `target` if register 0 is greater than one; register 0 always exists. -/
def execJmpc (target : Nat) (s : State) : Host.Outcome State Fault Refusal :=
  .next (if guardTaken (s.reg 0) then s.jump target else s.advance)

/-- R99: `pc <- target`; nothing links. -/
def execJmp (target : Nat) (s : State) : Host.Outcome State Fault Refusal := .next (s.jump target)

/-- R100: `ra <- literal`, the vector as it is. -/
def execLdra (literal : Bits) (s : State) : Host.Outcome State Fault Refusal := .next (s.setRa literal).advance

/-- R101: `pc <- uint(ra)`; `ra` and the stack stay. -/
def execRet (s : State) : Host.Outcome State Fault Refusal := .next (s.jump (uint s.ra))

end Sys2Proof.Machine
end

