-- ==== Sys2Proof/Machine/Cycle.lean ====
section
/-! DEFINITION. The parts of the execution cycle (spec/40_execution_cycle.md): the fetch, NOP (R89) and an unrecognised
opcode (R90). -/

namespace Sys2Proof.Machine

/-- R49: `Fetch(i)`: one whole slot, without side effect. -/
def fetch (s : State) : Bits := s.slot s.pc

/-- R89: NOP changes nothing but the instruction pointer. -/
def execNop (s : State) : Host.Outcome State Fault Refusal := .next s.advance

/-- R90: a word whose opcode value is at or beyond the catalog's length is silently ignored. -/
def execUnrecognised (_op : Nat) (s : State) : Host.Outcome State Fault Refusal := .next s.advance

end Sys2Proof.Machine
end

