-- ==== Sys2Proof/Machine/MemoryTransfer.lean ====
section
/-! DEFINITION. The memory transfer instructions STL, LD and ST (spec/41_memory_transfer.md). One addressing mode:
absolute, the cell index being the `memory_address` field. -/

namespace Sys2Proof.Machine

/-- R91: `memory[a] <- literal`. -/
def execStl (a : Nat) (literal : Bits) (s : State) : Host.Outcome State Fault Refusal := finish s do
  let t ← memWrite s a literal
  return t.advance

/-- R92: `x[r] <- memory[a]`; the memory index is checked first. -/
def execLd (a r : Nat) (s : State) : Host.Outcome State Fault Refusal := finish s do
  let v ← memRead s a
  let t ← writeReg s r v
  return t.advance

/-- R93: `memory[a] <- x[r]`; the register index is checked first (spec/90_conflicts.md C8). -/
def execSt (a r : Nat) (s : State) : Host.Outcome State Fault Refusal := finish s do
  let v ← readReg s r
  let t ← memWrite s a v
  return t.advance

end Sys2Proof.Machine
end

