-- ==== Sys2Proof/Machine/RegisterOps.lean ====
section
/-! DEFINITION. The register operations MUL, DECR and MOV (spec/42_register_ops.md). Sources are read before the
destination is written (spec/40_execution_cycle.md R87). -/

namespace Sys2Proof.Machine

/-- R94: `x[d] <- bits_L(uint(x[a]) * uint(x[b]) mod 2^L)`; the indices are checked in the order `a`, `b`, `d`. -/
def execMul (a b d : Nat) (s : State) : Host.Outcome State Fault Refusal := finish s do
  let u ← readReg s a
  let v ← readReg s b
  let t ← writeReg s d (product s.cfg.literalSize u v)
  return t.advance

/-- R95: `x[r] <- bits_L((uint(x[r]) + 2^L - 1) mod 2^L)`. -/
def execDecr (r : Nat) (s : State) : Host.Outcome State Fault Refusal := finish s do
  let v ← readReg s r
  let t ← writeReg s r (decrement s.cfg.literalSize v)
  return t.advance

/-- R96: `x[d] <- x[a]`; the source is the first field and is checked first. -/
def execMov (a d : Nat) (s : State) : Host.Outcome State Fault Refusal := finish s do
  let v ← readReg s a
  let t ← writeReg s d v
  return t.advance

end Sys2Proof.Machine
end

