-- ==== Sys2Proof/Machine/Stack.lean ====
section
/-! DEFINITION. The stack instructions PUSH, POP, PUSHRA and POPRA (spec/44_stack.md). Saved registers and saved return
addresses share the stack and carry no tag (R108). -/

namespace Sys2Proof.Machine

/-- R104: push `x[r]`. -/
def execPush (r : Nat) (s : State) : Host.Outcome State Fault Refusal := finish s do
  let v ← readReg s r
  return (s.pushed v).advance

/-- R105: pop the top into `x[r]`; the register index is checked before the stack. -/
def execPop (r : Nat) (s : State) : Host.Outcome State Fault Refusal := finish s do
  checkReg s r
  let (v, t) ← popTop s
  let u ← writeReg t r v
  return u.advance

/-- R106: push `ra`. -/
def execPushra (s : State) : Host.Outcome State Fault Refusal := .next (s.pushed s.ra).advance

/-- R107: pop the top into `ra`. -/
def execPopra (s : State) : Host.Outcome State Fault Refusal := finish s do
  let (v, t) ← popTop s
  return (t.setRa v).advance

end Sys2Proof.Machine
end

