-- ==== Sys2Proof/Machine/Dispatch.lean ====
section
/-! DEFINITION. The dispatch (spec/40_execution_cycle.md R85): each instruction to the rule of its kind. -/

namespace Sys2Proof.Machine

/-- R85: one direct call of a meaning per instruction. -/
def exec (i : Instr) (s : State) : Host.Outcome State Fault Refusal :=
  match i with
  | .nop => Sys2Proof.Machine.execNop s
  | .stl a v => Sys2Proof.Machine.execStl a v s
  | .ld a r => Sys2Proof.Machine.execLd a r s
  | .jmpc t => Sys2Proof.Machine.execJmpc t s
  | .mul a b d => Sys2Proof.Machine.execMul a b d s
  | .st a r => Sys2Proof.Machine.execSt a r s
  | .decr r => Sys2Proof.Machine.execDecr r s
  | .jmp t => Sys2Proof.Machine.execJmp t s
  | .push r => Sys2Proof.Machine.execPush r s
  | .pop r => Sys2Proof.Machine.execPop r s
  | .ldra v => Sys2Proof.Machine.execLdra v s
  | .ret => Sys2Proof.Machine.execRet s
  | .pushra => Sys2Proof.Machine.execPushra s
  | .popra => Sys2Proof.Machine.execPopra s
  | .mov a d => Sys2Proof.Machine.execMov a d s

end Sys2Proof.Machine
end

