-- ==== Sys2Proof/Machine/Assembler.lean ====
section
/-! DEFINITION. The assembler (spec/30_encoding.md R74 to R81; its errors, spec/60_exceptions.md R122): a line grammar, a
pass that records labels, a pass that encodes. Text is a list of characters; a source is a list of lines. The third
pass, the load, is a host operation (R78, Machine/HostOps.lean). -/

namespace Sys2Proof.Machine

/-- R122: the four kinds of assembler error. -/
inductive AsmError where
  | syntaxError
  | unknownInstruction
  | argumentCount
  | fieldOverflow
deriving DecidableEq, Repr

/-- A line of source text, or a token of it. -/
abbrev Text := List Char

/-- R75: the label table, label to absolute instruction index. -/
abbrev LabelTable := List (Text × Nat)

/-- A line taken apart by the grammar of R74. -/
structure ParsedLine where
  label    : Option Text
  mnemonic : Text
  args     : List Text
deriving DecidableEq, Repr

/-! ## The line grammar (R74) -/

/-- `0` to `9`. -/
def isDigit (c : Char) : Bool := 48 ≤ c.toNat && c.toNat ≤ 57

/-- `A` to `Z`. -/
def isUpper (c : Char) : Bool := 65 ≤ c.toNat && c.toNat ≤ 90

/-- `A` to `Z`, `a` to `z`, `0` to `9`. -/
def isAlnum (c : Char) : Bool := isDigit c || isUpper c || (97 ≤ c.toNat && c.toNat ≤ 122)

/-- The pieces of a text between the separators, one more than there are separators. -/
def splitAtChar (sep : Char) : Text → List Text
  | [] => [[]]
  | c :: cs =>
    match splitAtChar sep cs with
    | [] => [[c]]
    | w :: ws => if c = sep then [] :: w :: ws else (c :: w) :: ws

/-- R74: a source text is a sequence of newline-separated lines. -/
def sourceLines (text : Text) : List Text := splitAtChar '\n' text

/-- R74: the optional label, a label being `L` and digits before a colon and one space, and what follows it. -/
def splitLabel (line : Text) : Option Text × Text :=
  match line with
  | 'L' :: rest =>
    match rest.takeWhile isDigit, rest.dropWhile isDigit with
    | d :: ds, ':' :: ' ' :: body => (some ('L' :: d :: ds), body)
    | _, _ => (none, line)
  | _ => (none, line)

/-- R74, R79 (a): the arguments, separated by single commas, each alphanumeric and not empty. -/
def splitArgs (text : Text) : Option (List Text) :=
  let args := splitAtChar ',' text
  if args.all (fun a => !a.isEmpty && a.all isAlnum) then some args else none

/-- R74: one line by the grammar; `none` is a syntax error (an empty line, a second label, a lower-case mnemonic, a
space after a comma are all no match: R79). -/
def parseLine (line : Text) : Option ParsedLine :=
  let (label, body) := splitLabel line
  match body.takeWhile isUpper, body.dropWhile isUpper with
  | [], _ => none
  | m :: ms, [] => some ⟨label, m :: ms, []⟩
  | m :: ms, c :: rest => if c = ' ' then (splitArgs rest).map fun as => ⟨label, m :: ms, as⟩ else none

/-! ## Pass 1: validation and labels (R75) -/

/-- R75: every line is checked and its label recorded with its absolute index `k`; a label defined twice is a syntax
error (R79 (b)). -/
def collectLabels : Nat → List Text → LabelTable → Except AsmError LabelTable
  | _, [], table => .ok table
  | k, line :: rest, table =>
    match parseLine line with
    | none => .error .syntaxError
    | some p =>
      match p.label with
      | none => collectLabels (k + 1) rest table
      | some l =>
        if (table.lookup l).isSome then .error .syntaxError
        else collectLabels (k + 1) rest (table ++ [(l, k)])

/-! ## Pass 2: encoding (R76, R77) -/

/-- R81: the position of a mnemonic, by linear scan: the lowest one. -/
def findMnemonic (name : Text) : List Shape → Option Nat
  | [] => none
  | s :: rest => if s.name = name then some 0 else (findMnemonic name rest).map (· + 1)

/-- R77: the value of a decimal literal, most significant digit first. -/
def decimalValue (digits : Text) : Nat := digits.foldl (fun n c => 10 * n + (c.toNat - 48)) 0

/-- R77: an argument that is all digits is its value; any other is a label's index, or 0 where the label is not
recorded. -/
def argValue (table : LabelTable) (arg : Text) : Nat :=
  if arg.all isDigit then decimalValue arg else (table.lookup arg).getD 0

/-- R77, R79 (c): an argument resolved for a field of `w` bits. -/
def resolveArg (table : LabelTable) (w : Nat) (arg : Text) : Except AsmError Nat :=
  if argValue table arg < 2 ^ w then .ok (argValue table arg) else .error .fieldOverflow

/-- R76: the `k`-th argument goes to the `k`-th field; a different number of them is an error. -/
def resolveArgs (table : LabelTable) : List (FieldName × Nat) → List Text → Except AsmError (List Nat)
  | [], [] => .ok []
  | f :: fs, a :: as => do
    let v ← resolveArg table f.2 a
    let vs ← resolveArgs table fs as
    return v :: vs
  | _, _ => .error .argumentCount

/-- R76: one line to one word. -/
def encodeLine (c : Config) (table : LabelTable) (line : Text) : Except AsmError Bits :=
  match parseLine line with
  | none => .error .syntaxError
  | some p =>
    match findMnemonic p.mnemonic c.catalog with
    | none => .error .unknownInstruction
    | some op =>
      match c.catalog[op]? with
      | none => .error .unknownInstruction
      | some s =>
        if p.args.length ≠ s.fields.length then .error .argumentCount
        else do
          let vs ← resolveArgs table s.fields p.args
          return padWord c (encodeBody c op s vs)

/-- R76: every line in turn. -/
def encodeLines (c : Config) (table : LabelTable) : List Text → Except AsmError (List Bits)
  | [] => .ok []
  | line :: rest => do
    let w ← encodeLine c table line
    let ws ← encodeLines c table rest
    return w :: ws

/-- R75, R76: the words of a source assembled at the absolute index `start`; pass 1 ends before pass 2 begins. -/
def assemble (c : Config) (start : Nat) (lines : List Text) : Except AsmError (List Bits) := do
  let table ← collectLabels start lines []
  encodeLines c table lines

end Sys2Proof.Machine
end

