-- ==== Sys2Proof/Machine/HostOps.lean ====
section
/-! DEFINITION. The host operations (spec/70_reset_and_hazards.md R124 to R129): `init`, `clear`, `clear_prog`,
`load_prog`, the assembler's load, and the run entry. They act between runs only (spec/20_memory.md R58) and, but for
`init`, only after an `init` (R124). They are no instructions: the engine's step never performs one. The opcode width
and the catalog are the machine's own and no host operation changes them (spec/00_scope.md R13). -/

namespace Sys2Proof.Machine

/-- R121, R122: how a host operation fails. -/
inductive HostError where
  | capacity
  | widthMismatch
  | assembler (e : AsmError)
deriving DecidableEq, Repr

/-- Why a host operation is not admitted. -/
inductive HostRefusal where
  /-- R124: before the first `init` there is no state and no other operation is defined -/
  | beforeInit
  /-- R58: the host has no move while a run is in progress -/
  | runInProgress
  /-- R7 to R11: no machine is built from a configuration that is not well formed -/
  | illFormedConfig
deriving DecidableEq, Repr

/-- What the host gets back. -/
inductive HostResult where
  /-- the operation is done and the state is `s`; for a read-out, `s` is also what the host reads -/
  | done (s : State)
  /-- the operation failed and left the state `s` -/
  | failed (e : HostError) (s : State)
  | refused (r : HostRefusal)
deriving DecidableEq, Repr

/-- R129: what the host may do, one constructor per row of its table. `init` has five of the six scalars
(spec/90_conflicts.md C6). -/
inductive HostOp where
  | init (commandSize literalSize commandsSize memorySize registerFile : Nat)
  | clear
  | clearProg
  | loadProg (words : List Bits)
  | assemble (lines : List Text)
  | run
  | readOut
deriving DecidableEq, Repr

/-- C6: what the decoder and the assembler read of the configuration beside the sizes given to `init`; fixed for a
machine (R13, assumption log 20). -/
structure DecoderConfig where
  copSize : Nat
  catalog : List Shape
deriving DecidableEq, Repr

/-- The whole configuration from its two parts. -/
def DecoderConfig.withSizes (d : DecoderConfig)
    (commandSize literalSize commandsSize memorySize registerFile : Nat) : Config where
  commandsSize := commandsSize
  commandSize  := commandSize
  copSize      := d.copSize
  memorySize   := memorySize
  registerFile := registerFile
  literalSize  := literalSize
  catalog      := d.catalog

/-- The decoder's part of a configuration. -/
def decoderOf (c : Config) : DecoderConfig := ⟨c.copSize, c.catalog⟩

/-- What the host has before it: a machine no `init` has sized yet, of which only the decoder's part of the configuration
is there (R124), or one with a state. -/
inductive Hosted where
  | blank (d : DecoderConfig)
  | ready (s : State)
deriving DecidableEq, Repr

/-- The decoder's part of the configuration of a machine. -/
def Hosted.decoder : Hosted → DecoderConfig
  | .blank d => d
  | .ready s => decoderOf s.cfg

/-- R124: `init`: the reset state under the configuration, which is refused where it fails `WF` (R7 to R11). -/
def hostInit (c : Config) : HostResult := if c.wf then .done (State.init c) else .refused .illFormedConfig

/-- R125: `clear()`: memory, registers, stack and `ra` to zero or empty; nothing else. -/
def hostClear (s : State) : State :=
  { s with
    memory := []
    registers := List.replicate s.cfg.numRegs (zeros s.cfg.literalSize)
    stack := []
    ra := zeros s.cfg.literalSize }

/-- R126: `clear_prog()`: program memory to zero, the cursor to 0; nothing else. -/
def hostClearProg (s : State) : State := { s with commands := [], cursor := 0 }

/-- R127: the rollback: slots `base` to `base + k - 1` back to zero. -/
def zeroSlots (w base : Nat) : Nat → Memory → Memory
  | 0, m => m
  | k + 1, m => Memory.write w (zeroSlots w base k m) (base + k) (zeros w)

/-- R127: the loop of `load_prog` from its `k`-th word on; the flag says whether every word had the width `w`. -/
def loadWords (w base : Nat) : Nat → List Bits → Memory → Memory × Bool
  | _, [], m => (m, true)
  | k, word :: rest, m =>
    if word.length ≠ w then (zeroSlots w base k m, false)
    else loadWords w base (k + 1) rest (Memory.write w m (base + k) word)

/-- R127: `load_prog(words)`. -/
def hostLoadProg (words : List Bits) (s : State) : HostResult :=
  if s.cfg.numSlots - s.cursor < words.length then .failed .capacity s
  else
    match loadWords s.cfg.commandSize s.cursor 0 words s.commands with
    | (m, true) => .done { s with commands := m, cursor := s.cursor + words.length }
    | (m, false) => .failed .widthMismatch { s with commands := m }

/-- R75 to R78: assemble at the load cursor, then load; an assembler error reaches no slot. -/
def hostAssemble (lines : List Text) (s : State) : HostResult :=
  match assemble s.cfg s.cursor lines with
  | .ok words => hostLoadProg words s
  | .error e => .failed (.assembler e) s

/-- An operation on a state no run is in progress in. A second `init` is a full reset, possibly to other sizes (R124), of the
same decoder (R13). A read-out changes nothing (R129). -/
def hostIdle (op : HostOp) (s : State) : HostResult :=
  match op with
  | .init cw lw cs ms rf => hostInit ((decoderOf s.cfg).withSizes cw lw cs ms rf)
  | .clear => .done (hostClear s)
  | .clearProg => .done (hostClearProg s)
  | .loadProg words => hostLoadProg words s
  | .assemble lines => hostAssemble lines s
  | .run => .done s.startRun
  | .readOut => .done s

/-- R129, R58: a host operation. -/
def hostOp (op : HostOp) : Hosted → HostResult
  | .blank d =>
    match op with
    | .init cw lw cs ms rf => hostInit (d.withSizes cw lw cs ms rf)
    | _ => .refused .beforeInit
  | .ready s => if s.status = .running then .refused .runInProgress else hostIdle op s

/-- A run entered with one word loaded: the word stands in slot `i` (slot 0 if `i` is past the last slot), the cursor is past
it as `load_prog` leaves it (R33, R127), and the status is RUNNING (R128). -/
def runWord (word : Bits) (s : State) : State :=
  let i := if s.pc < s.cfg.numSlots then s.pc else 0
  { s with
    commands := Memory.write s.cfg.commandSize s.commands i word
    cursor := max s.cursor (i + 1)
    pc := i
    status := .running }

/-- The state under configuration `c`: `s` itself if it is a machine of that configuration, else the machine after an
`init` with it (R124). -/
def underConfig (c : Config) (s : State) : State := if s.cfg = c then s else State.init c

end Sys2Proof.Machine
end

