-- ==== Sys2Proof/Machine/Step.lean ====
section
/-! DEFINITION. One step of the execution engine (spec/40_execution_cycle.md R82), and the placing of a word where the
next step fetches. -/

namespace Sys2Proof.Machine

/-- The step of a running machine: the end of a run (R83), the fetch guard (R84), fetch, decode, dispatch (R85). -/
def runStep (s : State) : Host.Outcome State Fault Refusal :=
  if s.pc = s.cfg.numSlots then .next s.halt
  else if s.cfg.numSlots < s.pc then .next (s.raise (.fetchOutOfRange s.pc))
  else
    match decode s.cfg (fetch s) with
    | .unrecognised op => execUnrecognised op s
    | .recognised _ i => exec i s
    | .malformed _ => .refused .illFormedConfig

/-- R82: one step. A machine whose configuration is not well formed is refused (R7 to R11). A halted machine stays as it
is until the host acts (assumption log 5); a faulted machine executes no further step (R113). -/
def step (s : State) : Host.Outcome State Fault Refusal :=
  if s.cfg.wf then
    match s.status with
    | .running => runStep s
    | .halted => .next s
    | .fault f => .fault f
  else .refused .illFormedConfig

/-- `s` with the word of a table row of `nbits` bits where the next step fetches, under the configuration of that row
(assumption log 8). -/
def State.withFetchWord (s : State) (nbits w : Nat) : State :=
  match tableConfig nbits with
  | some c => runWord (bitsN nbits w) (underConfig c s)
  | none => s

end Sys2Proof.Machine
end

