-- ==== Sys2Proof/Machine/Ports.lean ====
section
/-! DEFINITION. The functional port view (spec/10_state.md R37 to R41): which ports of the register file, the memories,
the stack and `ra` each kind uses in one step. It adds no behaviour; every port not listed is idle. The decoder's own
outputs (R37) are `rawDecode`. -/

namespace Sys2Proof.Machine

/-- Where a register read port takes its index from: a decoded field, or the fixed index 0 of JMPC. -/
inductive ReadIndex where
  | field (f : FieldName)
  | zero
deriving DecidableEq, Repr

/-- The register index a read port of the step of an instruction is given. -/
def readIndexOf (i : Instr) : ReadIndex → Option Nat
  | .field f => i.indexField f
  | .zero => some 0

/-- R40: what the stack does in one step. -/
inductive StackPort where
  | idle
  | push
  | pop
deriving DecidableEq, Repr

/-- R41: one row of the port usage table. -/
structure Ports where
  readA    : Option ReadIndex := none
  readB    : Option ReadIndex := none
  writeReg : Option FieldName := none
  memRead  : Option FieldName := none
  memWrite : Option FieldName := none
  stack    : StackPort := .idle
  raLoad   : Bool := false
  raRead   : Bool := false
  /-- the next `i` can be other than `i + 1` -/
  transfer : Bool := false
deriving DecidableEq, Repr

/-- R41: the port usage of each kind. -/
def portsOf : Kind → Ports
  | .nop => {}
  | .stl => { memWrite := some .memoryAddress }
  | .ld => { writeReg := some .registerAddress, memRead := some .memoryAddress }
  | .jmpc => { readA := some .zero, transfer := true }
  | .mul => { readA := some (.field .firstOperand), readB := some (.field .secondOperand),
              writeReg := some .registerAddress }
  | .st => { readA := some (.field .registerAddress), memWrite := some .memoryAddress }
  | .decr => { readA := some (.field .registerAddress), writeReg := some .registerAddress }
  | .jmp => { transfer := true }
  | .push => { readA := some (.field .registerAddress), stack := .push }
  | .pop => { writeReg := some .registerAddress, stack := .pop }
  | .ldra => { raLoad := true }
  | .ret => { raRead := true, transfer := true }
  | .pushra => { stack := .push, raRead := true }
  | .popra => { stack := .pop, raLoad := true }
  | .mov => { readA := some (.field .firstRegister), writeReg := some .secondRegister }

end Sys2Proof.Machine
end

