-- ==== Sys2Proof/Machine/Run.lean ====
section
/-! DEFINITION. A run (spec/40_execution_cycle.md R88): the repetition of the step until the status is no longer RUNNING.
The hardware has no step limit; the fuel is the model's means to evaluate a run, and a state still RUNNING when it is
used up is a run not yet ended, never an outcome of the machine. -/

namespace Sys2Proof.Machine

/-- R88: the state a run has reached after at most `fuel` steps; a run that has ended stays where it ended. -/
def runFor : Nat → State → Host.Outcome State Fault Refusal
  | 0, s => .next s
  | fuel + 1, s =>
    if s.status = .running then
      match step s with
      | .next t => runFor fuel t
      | .fault f => .fault f
      | .refused r => .refused r
    else .next s

end Sys2Proof.Machine
end

