-- ==== Sys2Proof/Safety.lean ====
section
/-! DEFINITION. What counts as a sound state and a safe configuration: the invariants of spec/10_state.md R32 and R33
with the canonical form of the memories, and the field widths that make an index fault impossible (spec/60_exceptions.md
R111, R112). -/

namespace Sys2Proof.Machine

/-- R32: every stored vector of the list has width `w`. -/
def allWidth (w : Nat) (vs : List Bits) : Bool := vs.all fun v => v.length == w

/-- R33: every slot at or past the cursor is zero, that is, not listed; and the cursor is at most `N` (R29). -/
def State.cursorOk (s : State) : Bool := s.cursor ≤ s.cfg.numSlots && s.commands.all fun e => e.1 < s.cursor

/-- The number of elements of a space. -/
def State.spaceSize (s : State) : Space → Nat
  | .memory => s.cfg.numCells
  | .registers => s.cfg.numRegs

/-- R109, R113: what a fault status records is true of the state it left: the slot is the instruction pointer, and the
cause holds. -/
def State.statusOk (s : State) : Bool :=
  match s.status with
  | .running => true
  | .halted => true
  | .fault (.emptyStack k) => k == s.pc && s.stack.isEmpty
  | .fault (.indexOutOfRange k sp idx) => k == s.pc && s.spaceSize sp ≤ idx
  | .fault (.fetchOutOfRange k) => k == s.pc && s.cfg.numSlots < k

/-- The invariant of the machine: a well-formed configuration, both memories in canonical form with every entry of its
slot's width, `NR` registers, every register, stack entry and `ra` of `L` bits (R32), the cursor invariant (R33), and a
truthful fault status (R113). -/
def State.wf (s : State) : Bool :=
  s.cfg.wf
    && Memory.wf s.cfg.commandSize s.cfg.numSlots s.commands
    && Memory.wf s.cfg.literalSize s.cfg.numCells s.memory
    && s.registers.length == s.cfg.numRegs
    && allWidth s.cfg.literalSize s.registers
    && allWidth s.cfg.literalSize s.stack
    && s.ra.length == s.cfg.literalSize
    && s.cursorOk
    && s.statusOk

/-- The log2 size of the space a field indexes; `none` for the literal. -/
def addressBits (c : Config) : FieldName → Option Nat
  | .memoryAddress => some c.memorySize
  | .registerAddress => some c.registerFile
  | .firstOperand => some c.registerFile
  | .secondOperand => some c.registerFile
  | .firstRegister => some c.registerFile
  | .secondRegister => some c.registerFile
  | .commandAddress => some c.commandsSize
  | .literal => none

/-- A field is at most as wide as the log2 size of its space. -/
def narrowField (c : Config) (f : FieldName × Nat) : Bool :=
  match addressBits c f.1 with
  | some n => f.2 ≤ n
  | none => true

/-- R111: every memory and register field of the catalog is at most as wide as the log2 size of its space. -/
def narrowIndices (c : Config) : Bool :=
  c.catalog.all fun s => s.fields.all fun f => f.1 == .commandAddress || narrowField c f

/-- R112: every `command_address` field of the catalog is at most `commands_size` bits wide. -/
def narrowTargets (c : Config) : Bool :=
  c.catalog.all fun s => s.fields.all fun f => f.1 != .commandAddress || narrowField c f

/-- The machine has not stopped on a fault. -/
def State.safe (s : State) : Bool :=
  match s.status with
  | .fault _ => false
  | _ => true

end Sys2Proof.Machine
end

