-- ==== Sys2Proof/Certificates/Slice0/Obligations.lean ====
section
/-! DEFINITION. The statements for the provers, each with the rule of spec/ it comes from. Where a clause rests on a
point the spec marks as its own decision (D<n> of spec/92_eei_decisions.md) or on a choice of the model, the docstring
says so. -/

open Sys2Proof Sys2Proof.Machine

/-! ## Encoding -/

/-- Words of spec/95_test_vectors.md section 2.1 decode to the instruction written beside them. -/
def Obligations.DecodesTheSpecsWords : Prop :=
  decodeTableWord 16 0x0000 = some .nop
  ∧ decodeTableWord 16 0x13C8 = some (.stl 3 [true, true, false, false, true, false, false, false])
  ∧ decodeTableWord 16 0x46C0 = some (.mul 1 2 3)
  ∧ decodeTableWord 16 0x6FFF = some (.decr 3)
  ∧ decodeTableWord 16 0xA050 = some (.ldra [false, false, false, false, false, true, false, true])
  ∧ decodeTableWord 16 0xE600 = some (.mov 1 2)
  ∧ decodeTableWord 16 0xF123 = none
  ∧ decodeTableWord 8 0x40 = some (.decr 0)
  ∧ decodeTableWord 8 0x80 = some (.jmp 0)

/-- R70 (the spec's own catalog, D1), in the conventional bit numbers of R17: every 16-bit word decodes by its bits
15:12 to the row of that opcode value, each field at the row's bits, the pad ignored; opcode 15 is unrecognised. -/
def Obligations.RefWordsDecodeByBitNumbers : Prop :=
  ∀ w, w < 65536 → decodeTableWord 16 w =
    match w / 4096 with
    | 0 => some .nop
    | 1 => some (.stl (w / 256 % 16) (bitsN 8 (w % 256)))
    | 2 => some (.ld (w / 256 % 16) (w / 64 % 4))
    | 3 => some (.jmpc (w / 256 % 16))
    | 4 => some (.mul (w / 1024 % 4) (w / 256 % 4) (w / 64 % 4))
    | 5 => some (.st (w / 256 % 16) (w / 64 % 4))
    | 6 => some (.decr (w / 1024 % 4))
    | 7 => some (.jmp (w / 256 % 16))
    | 8 => some (.push (w / 1024 % 4))
    | 9 => some (.pop (w / 1024 % 4))
    | 10 => some (.ldra (bitsN 8 (w / 16 % 256)))
    | 11 => some .ret
    | 12 => some .pushra
    | 13 => some .popra
    | 14 => some (.mov (w / 1024 % 4) (w / 256 % 4))
    | _ => none

/-- R71: the `EX8` catalog: every 8-bit word decodes by its bits 7:6, DECR's register at bits 5:4, JMP's target at bits
5:3, the pad ignored, opcode 3 unrecognised; and the two assembled words of the document are the encoder's. -/
def Obligations.Ex8WordsDecodeByBitNumbers : Prop :=
  (∀ w, w < 256 → decode ex8Config (bitsN 8 w) =
    match w / 64 with
    | 0 => .recognised 0 .nop
    | 1 => .recognised 1 (.decr (w / 16 % 4))
    | 2 => .recognised 2 (.jmp (w / 8 % 8))
    | _ => .unrecognised 3)
  ∧ encode ex8Config 1 (.decr 0) = some [false, true, false, false, false, false, false, false]
  ∧ encode ex8Config 2 (.jmp 0) = some [true, false, false, false, false, false, false, false]
  ∧ ex8Config.copSize = 2 ∧ ex8Config.commandSize = 8 ∧ ex8Config.commandsSize = 3
  ∧ ex8Config.memorySize = 2 ∧ ex8Config.registerFile = 2 ∧ ex8Config.literalSize = 4

/-- R63: the field-slice matrix: field `j` of the shape at position `p` starts at `C` plus the widths of the fields
before it; a recognised word's field `j` is that slice, which in conventional numbers is
`word[W-1-off : W-off-width]`; `F.<name>` is defined exactly for the shape's field names, among them every name the
kind's rule uses. -/
def Obligations.FieldSliceMatrixGivesEveryField : Prop :=
  ∀ (c : Config) (p : Nat) (s : Shape), c.wf = true → c.catalog[p]? = some s →
    (∀ (j : Nat) (n : FieldName) (w : Nat), s.fields[j]? = some (n, w) →
      (fieldSliceMatrix c p)[j]? = some (n, c.copSize + ((s.fields.take j).map (·.2)).sum, w))
    ∧ ∀ word : Bits, word.length = c.commandSize → opcode c word = p →
      ∃ fs : List (FieldName × Bits), rawDecode c word = .recognised p s.kind fs
        ∧ (∀ (j : Nat) (n : FieldName) (off w : Nat), (fieldSliceMatrix c p)[j]? = some (n, off, w) →
            fs[j]? = some (n, slice word off w)
            ∧ fieldVector fs n = some (slice word off w)
            ∧ slice word off w = bitRange word ((c.commandSize : Int) - 1 - off) (c.commandSize - off - w))
        ∧ (∀ n, (fieldVector fs n).isSome = true ↔ n ∈ s.fields.map (·.1))
        ∧ (∀ n ∈ s.kind.fieldNames, (fieldVector fs n).isSome = true)

/-- R68: encoding in-range arguments and decoding the word gives the position, the kind and the arguments back; and
encoding the decoded position and field values of a word gives the word with its pad zeroed. -/
def Obligations.ArgumentsRoundTrip : Prop :=
  ∀ (c : Config) (p : Nat) (s : Shape), c.wf = true → c.catalog[p]? = some s →
    (∀ args : List Nat, List.Forall₂ (fun f a => a < 2 ^ f.2) s.fields args →
      ∃ word fs, encodeWord c p args = some word ∧ word.length = c.commandSize
        ∧ rawDecode c word = .recognised p s.kind fs
        ∧ fs.map (·.1) = s.fields.map (·.1)
        ∧ fs.map (fun e => uint e.2) = args)
    ∧ ∀ (word : Bits) (k : Kind) (fs : List (FieldName × Bits)), word.length = c.commandSize →
      rawDecode c word = .recognised p k fs →
      encodeWord c p (fs.map fun e => uint e.2)
        = some (word.take (c.copSize + s.fieldBits) ++ zeros (c.commandSize - (c.copSize + s.fieldBits)))

/-- R66 to R68 with R64, on instructions: for every well-formed configuration, position and instruction it can express
there, with every operand at every value its field admits, decode of encode is the instruction. -/
def Obligations.DecodeOfEncode : Prop :=
  ∀ (c : Config) (p : Nat) (i : Instr), c.wf = true → i.wf c p = true →
    ∃ word, encode c p i = some word ∧ word.length = c.commandSize ∧ decode c word = .recognised p i

/-- R68, the other way, on instructions: a word that decodes to an instruction decodes to a well-formed one, whose
encoding is that word with its pad zeroed. -/
def Obligations.EncodeOfDecode : Prop :=
  ∀ (c : Config) (word : Bits) (p : Nat) (i : Instr), c.wf = true → word.length = c.commandSize →
    decode c word = .recognised p i →
    i.wf c p = true ∧ ∃ s, c.catalog[p]? = some s ∧ encode c p i
      = some (word.take (c.copSize + s.fieldBits) ++ zeros (c.commandSize - (c.copSize + s.fieldBits)))

/-- R65: two words of one shape that agree up to the pad decode alike, so the pad is never examined. -/
def Obligations.PadBitsAreIgnored : Prop :=
  ∀ (c : Config) (u v : Bits) (s : Shape), c.wf = true →
    u.length = c.commandSize → v.length = c.commandSize →
    c.catalog[opcode c u]? = some s →
    u.take (c.copSize + s.fieldBits) = v.take (c.copSize + s.fieldBits) →
    decode c u = decode c v

/-- R66, R72 and R62 (D13): no encoding is illegal: every word of a well-formed configuration decodes, to `unrecognised`
exactly when its opcode value is at or beyond the catalog's length, and else to an instruction of the catalog entry. -/
def Obligations.EveryWordDecodes : Prop :=
  ∀ (c : Config) (word : Bits), c.wf = true → word.length = c.commandSize →
    (c.catalog.length ≤ opcode c word ∧ decode c word = .unrecognised (opcode c word))
    ∨ (opcode c word < c.catalog.length
        ∧ ∃ i, decode c word = .recognised (opcode c word) i ∧ i.wf c (opcode c word) = true)

/-- R73: the all-zero word is the catalog's first entry with every argument zero, and unrecognised where the catalog is
empty. -/
def Obligations.ZeroWordIsTheFirstEntry : Prop :=
  ∀ c : Config, c.wf = true →
    (c.catalog = [] → rawDecode c (zeros c.commandSize) = .unrecognised 0)
    ∧ (∀ s, c.catalog[0]? = some s → ∃ fs, rawDecode c (zeros c.commandSize) = .recognised 0 s.kind fs
        ∧ fs.map (·.1) = s.fields.map (·.1) ∧ ∀ e ∈ fs, uint e.2 = 0)

/-! ## The step -/

/-- R82, R85: when the word at the instruction pointer of a running machine decodes to an instruction, the step is that
instruction's `exec` on that state, and nothing around it. -/
def Obligations.StepRunsTheDecodedInstruction : Prop :=
  ∀ (s : State) (op : Nat) (i : Instr), s.cfg.wf = true → s.status = .running → s.pc < s.cfg.numSlots →
    decode s.cfg (fetch s) = .recognised op i → step s = exec i s

/-- R83 (D27): a running machine whose instruction pointer is the slot count halts, changing nothing else, and no other
step halts it. -/
def Obligations.RunEndsExactlyAtTheSlotCount : Prop :=
  (∀ s : State, s.cfg.wf = true → s.status = .running → s.pc = s.cfg.numSlots →
    step s = .next { s with status := .halted })
  ∧ ∀ s t : State, s.status = .running → step s = .next t → t.status = .halted →
    s.pc = s.cfg.numSlots ∧ t = { s with status := .halted }

/-- R84, R112 (D7): a running machine whose instruction pointer is past the slot count raises FetchOutOfRange, changing
nothing else, and no other step raises it. -/
def Obligations.FetchPastTheEndFaults : Prop :=
  (∀ s : State, s.cfg.wf = true → s.status = .running → s.cfg.numSlots < s.pc →
    step s = .next { s with status := .fault (.fetchOutOfRange s.pc) })
  ∧ ∀ (s t : State) (k : Nat), s.status = .running → step s = .next t → t.status = .fault (.fetchOutOfRange k) →
    s.cfg.numSlots < s.pc ∧ k = s.pc

/-- R90: a fetched word whose opcode value is at or beyond the catalog's length changes nothing but the instruction
pointer; in `REF` those are the words 0xF000 to 0xFFFF, in `EX8` 11000000 to 11111111. -/
def Obligations.UnrecognisedWordOnlyAdvances : Prop :=
  (∀ s : State, s.cfg.wf = true → s.status = .running → s.pc < s.cfg.numSlots →
    s.cfg.catalog.length ≤ opcode s.cfg (fetch s) → step s = .next { s with pc := s.pc + 1 })
  ∧ (∀ w, w < 65536 → (refConfig.catalog.length ≤ opcode refConfig (bitsN 16 w) ↔ 0xF000 ≤ w))
  ∧ ∀ w, w < 256 → (ex8Config.catalog.length ≤ opcode ex8Config (bitsN 8 w) ↔ 0xC0 ≤ w)

/-- R113 (D12, D14) and the model's choice of assumption log 5: a machine in a fault status executes no further step and
answers with that fault; a halted machine stays as it is. -/
def Obligations.StoppedMachineTakesNoStep : Prop :=
  (∀ (s : State) (f : Fault), s.cfg.wf = true → s.status = .fault f → step s = .fault f)
  ∧ ∀ s : State, s.cfg.wf = true → s.status = .halted → step s = .next s

/-- R7 to R11, R66, R72: a step is refused exactly where the configuration is not well formed: with a well-formed one no word
and no instruction is. -/
def Obligations.OnlyIllFormedConfigsAreRefused : Prop :=
  ∀ (s : State) (r : Refusal), step s = .refused r ↔ (s.cfg.wf = false ∧ r = .illFormedConfig)

/-! ## The instructions, one by one -/

/-- R89: NOP. -/
def Obligations.NopOnlyAdvances : Prop :=
  (∀ s : State, exec .nop s = .next { s with pc := s.pc + 1 })
  ∧ (∀ w, w < 65536 → w / 4096 = 0 → decodeTableWord 16 w = some .nop)
  ∧ ∀ w, w < 256 → w / 64 = 0 → decodeTableWord 8 w = some .nop

/-- R91: STL. The fault clause is the guard of R47 (D6). -/
def Obligations.StlStoresTheLiteral : Prop :=
  (∀ (a : Nat) (v : Bits) (s : State),
    (a < s.cfg.numCells → ∃ t, exec (.stl a v) s = .next t
      ∧ t.cell a = v ∧ (∀ b, b ≠ a → t.cell b = s.cell b)
      ∧ t = { s with memory := t.memory, pc := s.pc + 1 })
    ∧ (s.cfg.numCells ≤ a →
      exec (.stl a v) s = .next { s with status := .fault (.indexOutOfRange s.pc .memory a) }))
  ∧ ∀ w, w < 65536 → w / 4096 = 1 → decodeTableWord 16 w = some (.stl (w / 256 % 16) (bitsN 8 (w % 256)))

/-- R92: LD. The fault clauses are the guards of R47 and R48 (D6), the memory index first. -/
def Obligations.LdCopiesTheCell : Prop :=
  (∀ (a r : Nat) (s : State),
    (a < s.cfg.numCells → r < s.cfg.numRegs → s.registers.length = s.cfg.numRegs →
      ∃ t, exec (.ld a r) s = .next t
        ∧ t.reg r = s.cell a ∧ (∀ k, k ≠ r → t.reg k = s.reg k)
        ∧ t = { s with registers := t.registers, pc := s.pc + 1 })
    ∧ (s.cfg.numCells ≤ a →
      exec (.ld a r) s = .next { s with status := .fault (.indexOutOfRange s.pc .memory a) })
    ∧ (a < s.cfg.numCells → s.cfg.numRegs ≤ r →
      exec (.ld a r) s = .next { s with status := .fault (.indexOutOfRange s.pc .registers r) }))
  ∧ ∀ w, w < 65536 → w / 4096 = 2 → decodeTableWord 16 w = some (.ld (w / 256 % 16) (w / 64 % 4))

/-- R93: ST. The fault clauses are the guards of R47 and R48 (D6), the register index first. -/
def Obligations.StCopiesTheRegister : Prop :=
  (∀ (a r : Nat) (s : State),
    (a < s.cfg.numCells → r < s.cfg.numRegs → ∃ t, exec (.st a r) s = .next t
      ∧ t.cell a = s.reg r ∧ (∀ b, b ≠ a → t.cell b = s.cell b)
      ∧ t = { s with memory := t.memory, pc := s.pc + 1 })
    ∧ (s.cfg.numRegs ≤ r →
      exec (.st a r) s = .next { s with status := .fault (.indexOutOfRange s.pc .registers r) })
    ∧ (r < s.cfg.numRegs → s.cfg.numCells ≤ a →
      exec (.st a r) s = .next { s with status := .fault (.indexOutOfRange s.pc .memory a) }))
  ∧ ∀ w, w < 65536 → w / 4096 = 5 → decodeTableWord 16 w = some (.st (w / 256 % 16) (w / 64 % 4))

/-- R94: MUL. That the low `L` digits of the product are kept is the spec's reading (D8); the fault clauses are the
guard of R48 (D6), in the order of the operands. -/
def Obligations.MulWritesTheProduct : Prop :=
  (∀ (a b d : Nat) (s : State),
    (a < s.cfg.numRegs → b < s.cfg.numRegs → d < s.cfg.numRegs → s.registers.length = s.cfg.numRegs →
      ∃ t, exec (.mul a b d) s = .next t
        ∧ uint (t.reg d) = uint (s.reg a) * uint (s.reg b) % 2 ^ s.cfg.literalSize
        ∧ (t.reg d).length = s.cfg.literalSize
        ∧ (∀ k, k ≠ d → t.reg k = s.reg k)
        ∧ t = { s with registers := t.registers, pc := s.pc + 1 })
    ∧ (s.cfg.numRegs ≤ a →
      exec (.mul a b d) s = .next { s with status := .fault (.indexOutOfRange s.pc .registers a) })
    ∧ (a < s.cfg.numRegs → s.cfg.numRegs ≤ b →
      exec (.mul a b d) s = .next { s with status := .fault (.indexOutOfRange s.pc .registers b) })
    ∧ (a < s.cfg.numRegs → b < s.cfg.numRegs → s.cfg.numRegs ≤ d →
      exec (.mul a b d) s = .next { s with status := .fault (.indexOutOfRange s.pc .registers d) }))
  ∧ ∀ w, w < 65536 → w / 4096 = 4 →
    decodeTableWord 16 w = some (.mul (w / 1024 % 4) (w / 256 % 4) (w / 64 % 4))

/-- R95: DECR, with the wrap from zero to all ones. The fault clause is the guard of R48 (D6). -/
def Obligations.DecrSubtractsOne : Prop :=
  (∀ (r : Nat) (s : State),
    (r < s.cfg.numRegs → s.registers.length = s.cfg.numRegs → ∃ t, exec (.decr r) s = .next t
      ∧ uint (t.reg r) = (uint (s.reg r) + 2 ^ s.cfg.literalSize - 1) % 2 ^ s.cfg.literalSize
      ∧ (t.reg r).length = s.cfg.literalSize
      ∧ (uint (s.reg r) = 0 → t.reg r = List.replicate s.cfg.literalSize true)
      ∧ (∀ k, k ≠ r → t.reg k = s.reg k)
      ∧ t = { s with registers := t.registers, pc := s.pc + 1 })
    ∧ (s.cfg.numRegs ≤ r →
      exec (.decr r) s = .next { s with status := .fault (.indexOutOfRange s.pc .registers r) }))
  ∧ (∀ w, w < 65536 → w / 4096 = 6 → decodeTableWord 16 w = some (.decr (w / 1024 % 4)))
  ∧ ∀ w, w < 256 → w / 64 = 1 → decodeTableWord 8 w = some (.decr (w / 16 % 4))

/-- R96: MOV, source first. The fault clauses are the guard of R48 (D6), the source first. -/
def Obligations.MovCopiesTheRegister : Prop :=
  (∀ (a d : Nat) (s : State),
    (a < s.cfg.numRegs → d < s.cfg.numRegs → s.registers.length = s.cfg.numRegs →
      ∃ t, exec (.mov a d) s = .next t
        ∧ t.reg d = s.reg a ∧ (∀ k, k ≠ d → t.reg k = s.reg k)
        ∧ t = { s with registers := t.registers, pc := s.pc + 1 })
    ∧ (s.cfg.numRegs ≤ a →
      exec (.mov a d) s = .next { s with status := .fault (.indexOutOfRange s.pc .registers a) })
    ∧ (a < s.cfg.numRegs → s.cfg.numRegs ≤ d →
      exec (.mov a d) s = .next { s with status := .fault (.indexOutOfRange s.pc .registers d) }))
  ∧ ∀ w, w < 65536 → w / 4096 = 14 → decodeTableWord 16 w = some (.mov (w / 1024 % 4) (w / 256 % 4))

/-- R98: JMPC jumps exactly when register 0 is strictly greater than one, and changes nothing else; any target is
accepted. -/
def Obligations.JmpcJumpsAboveOne : Prop :=
  (∀ (t : Nat) (s : State),
    (1 < uint (s.reg 0) → exec (.jmpc t) s = .next { s with pc := t })
    ∧ (uint (s.reg 0) ≤ 1 → exec (.jmpc t) s = .next { s with pc := s.pc + 1 }))
  ∧ ∀ w, w < 65536 → w / 4096 = 3 → decodeTableWord 16 w = some (.jmpc (w / 256 % 16))

/-- R99: JMP sets the instruction pointer and changes nothing else; any target is accepted. -/
def Obligations.JmpSetsThePointer : Prop :=
  (∀ (t : Nat) (s : State), exec (.jmp t) s = .next { s with pc := t })
  ∧ (∀ w, w < 65536 → w / 4096 = 7 → decodeTableWord 16 w = some (.jmp (w / 256 % 16)))
  ∧ ∀ w, w < 256 → w / 64 = 2 → decodeTableWord 8 w = some (.jmp (w / 8 % 8))

/-- R100: LDRA writes its literal to `ra`, the vector as it is. -/
def Obligations.LdraLoadsTheLiteral : Prop :=
  (∀ (v : Bits) (s : State), exec (.ldra v) s = .next { s with ra := v, pc := s.pc + 1 })
  ∧ ∀ w, w < 65536 → w / 4096 = 10 → decodeTableWord 16 w = some (.ldra (bitsN 8 (w / 16 % 256)))

/-- R101: RET sets the instruction pointer to the unsigned value of `ra` and changes nothing else. -/
def Obligations.RetJumpsToTheReturnAddress : Prop :=
  (∀ s : State, exec .ret s = .next { s with pc := uint s.ra })
  ∧ ∀ w, w < 65536 → w / 4096 = 11 → decodeTableWord 16 w = some .ret

/-- R104: PUSH. The fault clause is the guard of R48 (D6); there is no overflow fault. -/
def Obligations.PushAppendsTheRegister : Prop :=
  (∀ (r : Nat) (s : State),
    (r < s.cfg.numRegs → exec (.push r) s = .next { s with stack := s.stack ++ [s.reg r], pc := s.pc + 1 })
    ∧ (s.cfg.numRegs ≤ r →
      exec (.push r) s = .next { s with status := .fault (.indexOutOfRange s.pc .registers r) }))
  ∧ ∀ w, w < 65536 → w / 4096 = 8 → decodeTableWord 16 w = some (.push (w / 1024 % 4))

/-- R105: POP. The register index is checked first (the guard of R48, D6), whatever the stack; then an empty stack is the
fault EmptyStack; on either fault nothing else changes. -/
def Obligations.PopTakesTheTop : Prop :=
  (∀ (r : Nat) (s : State),
    (∀ (below : List Bits) (v : Bits), r < s.cfg.numRegs → s.registers.length = s.cfg.numRegs →
      s.stack = below ++ [v] → ∃ t, exec (.pop r) s = .next t
        ∧ t.reg r = v ∧ (∀ k, k ≠ r → t.reg k = s.reg k)
        ∧ t = { s with registers := t.registers, stack := below, pc := s.pc + 1 })
    ∧ (s.cfg.numRegs ≤ r →
      exec (.pop r) s = .next { s with status := .fault (.indexOutOfRange s.pc .registers r) })
    ∧ (r < s.cfg.numRegs → s.stack = [] →
      exec (.pop r) s = .next { s with status := .fault (.emptyStack s.pc) }))
  ∧ ∀ w, w < 65536 → w / 4096 = 9 → decodeTableWord 16 w = some (.pop (w / 1024 % 4))

/-- R106: PUSHRA appends `ra`, whose value stays. -/
def Obligations.PushraAppendsTheReturnAddress : Prop :=
  (∀ s : State, exec .pushra s = .next { s with stack := s.stack ++ [s.ra], pc := s.pc + 1 })
  ∧ ∀ w, w < 65536 → w / 4096 = 12 → decodeTableWord 16 w = some .pushra

/-- R107: POPRA pops the top into `ra` and does not jump; an empty stack is the fault EmptyStack. -/
def Obligations.PopraLoadsTheTop : Prop :=
  (∀ s : State,
    (∀ (below : List Bits) (v : Bits), s.stack = below ++ [v] →
      exec .popra s = .next { s with ra := v, stack := below, pc := s.pc + 1 })
    ∧ (s.stack = [] → exec .popra s = .next { s with status := .fault (.emptyStack s.pc) }))
  ∧ ∀ w, w < 65536 → w / 4096 = 13 → decodeTableWord 16 w = some .popra

/-! ## Frames -/

/-- The frame of the instructions that write one register: LD, MUL, DECR, MOV, POP with destination `d`. Only register `d`,
the instruction pointer, the status (on a fault) and, for POP, the stack's top can change. -/
def Obligations.RegisterWritersFrame : Prop :=
  ∀ (i : Instr) (d : Nat) (s t : State),
    ((∃ a, i = .ld a d) ∨ (∃ a b, i = .mul a b d) ∨ i = .decr d ∨ (∃ a, i = .mov a d) ∨ i = .pop d) →
    exec i s = .next t →
    (∀ k, k ≠ d → t.reg k = s.reg k)
    ∧ (∀ b, t.cell b = s.cell b) ∧ (∀ a, t.slot a = s.slot a)
    ∧ t.memory = s.memory ∧ t.commands = s.commands ∧ t.cfg = s.cfg ∧ t.cursor = s.cursor ∧ t.ra = s.ra
    ∧ t.registers.length = s.registers.length
    ∧ (t.stack = s.stack ∨ (i = .pop d ∧ t.stack = s.stack.dropLast))
    ∧ (t.status = s.status ∨ ∃ f, t = { s with status := .fault f })

/-- The frame of the storing instructions STL and ST: the address stored to is the `memory_address` operand; every other
cell, every register, the stack, `ra`, program memory and the cursor are unchanged. -/
def Obligations.StoringFrame : Prop :=
  ∀ (i : Instr) (a : Nat) (s t : State),
    ((∃ v, i = .stl a v) ∨ (∃ r, i = .st a r)) →
    exec i s = .next t →
    (∀ b, b ≠ a → t.cell b = s.cell b)
    ∧ (∀ k, t.reg k = s.reg k) ∧ (∀ k, t.slot k = s.slot k)
    ∧ t.registers = s.registers ∧ t.stack = s.stack ∧ t.ra = s.ra
    ∧ t.commands = s.commands ∧ t.cfg = s.cfg ∧ t.cursor = s.cursor
    ∧ (t.status = s.status ∨ ∃ f, t = { s with status := .fault f })

/-- The frame of NOP, JMPC, JMP, RET and LDRA: they raise no fault and change nothing but the instruction pointer and,
for LDRA, `ra`. -/
def Obligations.TransferFrame : Prop :=
  ∀ (i : Instr) (s t : State),
    (i = .nop ∨ (∃ a, i = .jmpc a) ∨ (∃ a, i = .jmp a) ∨ i = .ret ∨ (∃ v, i = .ldra v)) →
    exec i s = .next t →
    (∀ k, t.reg k = s.reg k) ∧ (∀ b, t.cell b = s.cell b) ∧ (∀ a, t.slot a = s.slot a)
    ∧ t.registers = s.registers ∧ t.memory = s.memory ∧ t.commands = s.commands
    ∧ t.stack = s.stack ∧ t.cfg = s.cfg ∧ t.cursor = s.cursor ∧ t.status = s.status
    ∧ (t.ra = s.ra ∨ ∃ v, i = .ldra v ∧ t.ra = v)

/-- The frame of PUSH, PUSHRA and POPRA: no register and no memory changes; a push keeps every entry below; POPRA alone
writes `ra`. -/
def Obligations.StackFrame : Prop :=
  ∀ (i : Instr) (s t : State),
    ((∃ r, i = .push r) ∨ i = .pushra ∨ i = .popra) →
    exec i s = .next t →
    (∀ k, t.reg k = s.reg k) ∧ (∀ b, t.cell b = s.cell b) ∧ (∀ a, t.slot a = s.slot a)
    ∧ t.registers = s.registers ∧ t.memory = s.memory ∧ t.commands = s.commands
    ∧ t.cfg = s.cfg ∧ t.cursor = s.cursor
    ∧ (i ≠ .popra → t.ra = s.ra ∧ s.stack <+: t.stack)
    ∧ (i = .popra → t.stack <+: s.stack)
    ∧ (t.status = s.status ∨ ∃ f, t = { s with status := .fault f })

/-- R41, the writing ports and the next `i`: a register file, data memory, stack or `ra` whose writing port the table leaves
unmarked for a kind is unchanged by the step, and a kind that is no transfer ends at `i + 1` unless it faults. (The read
ports: UnmarkedReadPortsAreNotRead.) -/
def Obligations.IdlePortsChangeNothing : Prop :=
  ∀ (i : Instr) (s t : State), exec i s = .next t →
    ((portsOf i.kind).writeReg = none → t.registers = s.registers)
    ∧ ((portsOf i.kind).memWrite = none → t.memory = s.memory)
    ∧ ((portsOf i.kind).stack = .idle → t.stack = s.stack)
    ∧ ((portsOf i.kind).raLoad = false → t.ra = s.ra)
    ∧ ((portsOf i.kind).transfer = false → t.pc = s.pc + 1 ∨ ∃ f, t = { s with status := .fault f })
    ∧ t.commands = s.commands ∧ t.cursor = s.cursor ∧ t.cfg = s.cfg

/-- R41, the read ports: a step depends on no register but those the marked ports RA and RB name, on no cell but the one the
marked memory port names, on `ra` only where its read is marked, and on the stack only where the stack is used: with
anything else in their place it answers the same next state, but for what it leaves unwritten there. -/
def Obligations.UnmarkedReadPortsAreNotRead : Prop :=
  ∀ (i : Instr) (s t : State), exec i s = .next t →
    (∀ rs : List Bits, rs.length = s.registers.length →
      (∀ k, (portsOf i.kind).readA.bind (readIndexOf i) = some k ∨ (portsOf i.kind).readB.bind (readIndexOf i) = some k →
        State.reg { s with registers := rs } k = s.reg k) →
      ∃ u, exec i { s with registers := rs } = .next u ∧ u = { t with registers := u.registers }
        ∧ ∀ k, u.reg k = t.reg k ∨ (u.reg k = State.reg { s with registers := rs } k ∧ t.reg k = s.reg k))
    ∧ (∀ m : Memory,
      (∀ a, (portsOf i.kind).memRead.bind i.indexField = some a → State.cell { s with memory := m } a = s.cell a) →
      ∃ u, exec i { s with memory := m } = .next u ∧ u = { t with memory := u.memory }
        ∧ ∀ a, u.cell a = t.cell a ∨ (u.cell a = State.cell { s with memory := m } a ∧ t.cell a = s.cell a))
    ∧ ((portsOf i.kind).raRead = false → ∀ v : Bits,
      ∃ u, exec i { s with ra := v } = .next u ∧ u = { t with ra := u.ra }
        ∧ (u.ra = t.ra ∨ (u.ra = v ∧ t.ra = s.ra)))
    ∧ ((portsOf i.kind).stack = .idle → ∀ st : List Bits,
      exec i { s with stack := st } = .next { t with stack := st })

/-! ## Whole-machine rules -/

/-- R86: unless it is a control transfer or faults, an instruction ends at `i + 1` on natural numbers, without
wrap-around; only JMPC when taken, JMP and RET say otherwise; an instruction that faults does not change `i`. -/
def Obligations.DefaultSuccessorIsTheNextSlot : Prop :=
  ∀ (i : Instr) (s t : State), s.status = .running → exec i s = .next t →
    ((∃ f, t.status = .fault f) → t.pc = s.pc)
    ∧ (t.status = .running →
      (∀ a, i = .jmpc a → 1 < uint (s.reg 0) → t.pc = a)
      ∧ (∀ a, i = .jmpc a → uint (s.reg 0) ≤ 1 → t.pc = s.pc + 1)
      ∧ (∀ a, i = .jmp a → t.pc = a)
      ∧ (i = .ret → t.pc = uint s.ra)
      ∧ ((∀ a, i ≠ .jmpc a) → (∀ a, i ≠ .jmp a) → i ≠ .ret → t.pc = s.pc + 1))
    ∧ (t.status = .running ∨ ∃ f, t.status = .fault f)

/-- R24, R29, R56: a step of any machine leaves program memory, the load cursor and the configuration as they are, so a
fetch always returns the word the host loaded. -/
def Obligations.StepNeverWritesProgramMemory : Prop :=
  ∀ s t : State, step s = .next t →
    t.commands = s.commands ∧ (∀ a, t.slot a = s.slot a) ∧ t.cursor = s.cursor ∧ t.cfg = s.cfg

/-- R29: no program can observe the load cursor: changing it changes nothing else of a step. -/
def Obligations.CursorIsUnobservable : Prop :=
  ∀ (s : State) (k : Nat),
    step { s with cursor := k } =
      match step s with
      | .next t => .next { t with cursor := k }
      | .fault f => .fault f
      | .refused r => .refused r

/-- R113 (D12), R114: a step that ends in a fault status changes nothing but the status, and what it records is true:
the slot is the instruction pointer and the cause holds. -/
def Obligations.FaultsArePrecise : Prop :=
  ∀ (s t : State) (f : Fault), s.status = .running → step s = .next t → t.status = .fault f →
    t = { s with status := .fault f } ∧ t.statusOk = true

/-- R110 with R105's order of checks: an instruction raises EmptyStack exactly when it is POP with an existing register or
POPRA and the stack has no entry at the start of the step. -/
def Obligations.EmptyStackIsRaisedByPopsOnly : Prop :=
  ∀ (i : Instr) (s : State) (k : Nat), s.status = .running →
    ((∃ t, exec i s = .next t ∧ t.status = .fault (.emptyStack k)) ↔
      s.stack = [] ∧ k = s.pc ∧ (i = .popra ∨ ∃ r, r < s.cfg.numRegs ∧ i = .pop r))

/-- R111 (D6): where every memory and register field is at most as wide as the log2 size of its space, no step of a sound
machine raises IndexOutOfRange. -/
def Obligations.NarrowFieldsNeverFault : Prop :=
  ∀ (s t : State), s.wf = true → narrowIndices s.cfg = true → s.status = .running → step s = .next t →
    ∀ k sp idx, t.status ≠ .fault (.indexOutOfRange k sp idx)

/-- R112 (D7): where every `command_address` field is at most `commands_size` bits wide, a step from `i` at most `N` that is
not a RET with a return address above `N` ends with `i` at most `N`, and so the next fetch does not fault. -/
def Obligations.NarrowTargetsStayInRange : Prop :=
  ∀ (s t : State), s.wf = true → narrowTargets s.cfg = true → s.status = .running → s.pc ≤ s.cfg.numSlots →
    (∀ op, decode s.cfg (fetch s) = .recognised op .ret → uint s.ra ≤ s.cfg.numSlots) →
    step s = .next t →
    t.pc ≤ t.cfg.numSlots ∧ ∀ k, t.status ≠ .fault (.fetchOutOfRange k)

/-- R72, R119: every instruction may be executed at any time: from every state, with every operand, it answers a next
state. -/
def Obligations.EveryInstructionAnswersNext : Prop :=
  ∀ (i : Instr) (s : State), ∃ t, exec i s = .next t

/-- R108: the stack is last-in first-out: a push then a pop returns the value and leaves the state; a pop of an empty stack
raises EmptyStack; no instruction but PUSH, POP, PUSHRA and POPRA changes the stack, and no host operation but `clear` and
`init`, the run entry among them; those two leave it empty. -/
def Obligations.StackIsLastInFirstOut : Prop :=
  (∀ (s : State) (v : Bits), (s.pushed v).stack = s.stack ++ [v] ∧ popTop (s.pushed v) = .ok (v, s))
  ∧ (∀ s : State, s.stack = [] → popTop s = .error (.emptyStack s.pc))
  ∧ (∀ (i : Instr) (s t : State), exec i s = .next t → t.stack ≠ s.stack →
      (∃ r, i = .push r) ∨ (∃ r, i = .pop r) ∨ i = .pushra ∨ i = .popra)
  ∧ (∀ s : State, s.startRun.stack = s.stack ∧ (hostClear s).stack = [])
  ∧ (∀ c : Config, (State.init c).stack = [])
  ∧ ∀ (op : HostOp) (s t : State), (hostOp op (.ready s) = .done t ∨ ∃ e, hostOp op (.ready s) = .failed e t) →
    t.stack ≠ s.stack → op = .clear ∨ ∃ cw lw cs ms rf, op = .init cw lw cs ms rf

/-- R97 (its overflow clause rests on D8): the laws of the two arithmetic operations on `L`-digit vectors. -/
def Obligations.ArithmeticLaws : Prop :=
  ∀ (L : Nat) (u v : Bits), u.length = L → v.length = L →
    product L u v = product L v u
    ∧ (uint v = 0 → product L u v = zeros L)
    ∧ (uint v = 1 → product L u v = u)
    ∧ (uint (product L u v) = uint u * uint v ↔ uint u * uint v < 2 ^ L)
    ∧ (1 ≤ uint u → uint (decrement L u) = uint u - 1)
    ∧ (uint u = 0 → uint (decrement L u) = 2 ^ L - 1)
    ∧ (decrement L)^[2 ^ L] u = u

/-- R32, R33, R113: the invariant: from every state that meets it, a step that answers a next state answers one that meets
it: canonical memories, every width, the cursor invariant, a truthful fault status. -/
def Obligations.StepKeepsTheInvariant : Prop :=
  ∀ s t : State, s.wf = true → step s = .next t → t.wf = true

/-- R88, R83, R35: a run from a running machine that meets the invariant is never refused and never anything but a state; it
ends HALTED only with `i` at the slot count; it leaves program memory, the cursor and the configuration as they were; and
it has one end, which any greater number of steps gives too. -/
def Obligations.RunHasOneEnd : Prop :=
  ∀ (n : Nat) (s : State), s.wf = true → s.status = .running →
    ∃ t, runFor n s = .next t ∧ t.wf = true
      ∧ t.commands = s.commands ∧ t.cursor = s.cursor ∧ t.cfg = s.cfg
      ∧ (t.status = .halted → t.pc = s.cfg.numSlots)
      ∧ (t.status ≠ .running → ∀ m, n ≤ m → runFor m s = .next t)

/-- R32, R33, R35: the state after reset, and after `init` with any well-formed configuration, meets the invariant. -/
def Obligations.ResetMeetsTheInvariant : Prop :=
  State.reset.wf = true ∧ ∀ c : Config, c.wf = true → (State.init c).wf = true

/-- R35 (D9, D14, D20): the reset values, read through the state's accessors; that `i` is 0 before the first run entry is
the model's choice (assumption log 3), and so is the configuration `REF` (log 2). -/
def Obligations.ResetValues : Prop :=
  State.reset = State.init refConfig
  ∧ ∀ c : Config,
    (∀ a, (State.init c).slot a = zeros c.commandSize)
    ∧ (∀ a, (State.init c).cell a = zeros c.literalSize)
    ∧ (State.init c).registers.length = c.numRegs
    ∧ (∀ k, (State.init c).reg k = zeros c.literalSize)
    ∧ (State.init c).stack = [] ∧ (State.init c).ra = zeros c.literalSize
    ∧ (State.init c).cursor = 0 ∧ (State.init c).pc = 0 ∧ (State.init c).status = .halted

/-! ## Host operations -/

/-- R124 (D9, D20), R129, R58, R13: `init` with sizes that make a well-formed configuration with the machine's own opcode width
and catalog gives the reset state, from a machine no `init` has sized yet and from any state no run is in progress in;
with others it is refused; before it every other operation is refused; while a run is in progress every operation is; a
read-out between runs gives the state and changes nothing; and no host operation changes the opcode width or the catalog,
and none but `init` a size (log 20). -/
def Obligations.HostActsBetweenRunsAfterInit : Prop :=
  (∀ (m : Hosted) (cw lw cs ms rf : Nat), (∀ s, m = .ready s → s.status ≠ .running) →
    ((m.decoder.withSizes cw lw cs ms rf).wf = true →
      hostOp (.init cw lw cs ms rf) m = .done (State.init (m.decoder.withSizes cw lw cs ms rf)))
    ∧ ((m.decoder.withSizes cw lw cs ms rf).wf = false →
      hostOp (.init cw lw cs ms rf) m = .refused .illFormedConfig))
  ∧ (∀ (d : DecoderConfig) (op : HostOp), (∀ cw lw cs ms rf, op ≠ .init cw lw cs ms rf) →
    hostOp op (.blank d) = .refused .beforeInit)
  ∧ (∀ (op : HostOp) (s : State), s.status = .running → hostOp op (.ready s) = .refused .runInProgress)
  ∧ (∀ s : State, s.status ≠ .running → hostOp .readOut (.ready s) = .done s)
  ∧ ∀ (op : HostOp) (m : Hosted) (t : State), (hostOp op m = .done t ∨ ∃ e, hostOp op m = .failed e t) →
    t.cfg.copSize = m.decoder.copSize ∧ t.cfg.catalog = m.decoder.catalog
    ∧ ∀ s, m = .ready s → t.cfg = s.cfg ∨ ∃ cw lw cs ms rf, op = .init cw lw cs ms rf

/-- R125 (D9): `clear` zeroes every cell and register, empties the stack and zeroes `ra`, without touching anything else,
and is idempotent. -/
def Obligations.ClearZeroesDataState : Prop :=
  ∀ s : State, s.status ≠ .running →
    ∃ t, hostOp .clear (.ready s) = .done t
      ∧ (∀ a, t.cell a = zeros s.cfg.literalSize)
      ∧ t.registers.length = s.cfg.numRegs ∧ (∀ k, t.reg k = zeros s.cfg.literalSize)
      ∧ t.stack = [] ∧ t.ra = zeros s.cfg.literalSize
      ∧ t.commands = s.commands ∧ t.cursor = s.cursor ∧ t.cfg = s.cfg ∧ t.pc = s.pc ∧ t.status = s.status
      ∧ hostOp .clear (.ready t) = .done t

/-- R126: `clear_prog` zeroes every slot and the cursor and touches nothing else. -/
def Obligations.ClearProgZeroesProgramMemory : Prop :=
  ∀ s : State, s.status ≠ .running →
    ∃ t, hostOp .clearProg (.ready s) = .done t
      ∧ (∀ a, t.slot a = zeros s.cfg.commandSize) ∧ t.cursor = 0
      ∧ t = { s with commands := t.commands, cursor := 0 }

/-- R127: `load_prog`: the capacity error changes nothing; a success writes each word at the cursor and advances it; a width
mismatch at word `k` leaves the `k` slots already written by this call zero and every other slot, and the cursor, as they
were; and of a state that meets the invariant (with it R33) it leaves exactly that state. -/
def Obligations.LoadProgAppendsOrRollsBack : Prop :=
  ∀ (words : List Bits) (s : State), s.status ≠ .running →
    (s.cfg.numSlots - s.cursor < words.length → hostOp (.loadProg words) (.ready s) = .failed .capacity s)
    ∧ (words.length ≤ s.cfg.numSlots - s.cursor → (∀ w ∈ words, w.length = s.cfg.commandSize) →
      ∃ t, hostOp (.loadProg words) (.ready s) = .done t
        ∧ (∀ k w, words[k]? = some w → t.slot (s.cursor + k) = w)
        ∧ (∀ a, (a < s.cursor ∨ s.cursor + words.length ≤ a) → t.slot a = s.slot a)
        ∧ t = { s with commands := t.commands, cursor := s.cursor + words.length })
    ∧ (∀ k bad, words.length ≤ s.cfg.numSlots - s.cursor → words[k]? = some bad →
      bad.length ≠ s.cfg.commandSize → (∀ w ∈ words.take k, w.length = s.cfg.commandSize) →
      ∃ t, hostOp (.loadProg words) (.ready s) = .failed .widthMismatch t
        ∧ (∀ j, j < k → t.slot (s.cursor + j) = zeros s.cfg.commandSize)
        ∧ (∀ a, (a < s.cursor ∨ s.cursor + k ≤ a) → t.slot a = s.slot a)
        ∧ t = { s with commands := t.commands }
        ∧ (s.wf = true → t = s))

/-- R128 (D14, D27): the run entry sets `i` to 0 and the status to RUNNING and changes nothing else. -/
def Obligations.RunEntryStartsAtSlotZero : Prop :=
  ∀ s : State, s.status ≠ .running →
    hostOp .run (.ready s) = .done { s with pc := 0, status := .running }

/-- R32, R33, R121, R123: every host operation on a state that meets the invariant leaves a state that meets it, whether it is
done or fails; and one that fails leaves the state exactly as it was. -/
def Obligations.HostOperationsKeepTheInvariant : Prop :=
  ∀ (op : HostOp) (s : State), s.wf = true →
    (∀ t, hostOp op (.ready s) = .done t → t.wf = true)
    ∧ ∀ e t, hostOp op (.ready s) = .failed e t → t = s

/-- R76, R77, R81, R123: the assembler produces one canonical word per line: of the word width, decoding to the first catalog
entry whose name is the line's mnemonic, its fields in declared order holding the line's arguments in their order, a
decimal literal its value, a recorded label its absolute index, anything else 0 (D19); and equal to the encoding of its
decoded fields, so with a zero pad. -/
def Obligations.AssembledWordsAreCanonical : Prop :=
  ∀ (c : Config) (start : Nat) (lines : List Text) (words : List Bits), c.wf = true →
    assemble c start lines = .ok words →
    words.length = lines.length
    ∧ ∃ table, collectLabels start lines [] = .ok table
    ∧ ∀ (n : Nat) (line : Text) (word : Bits), lines[n]? = some line → words[n]? = some word →
      word.length = c.commandSize
      ∧ ∃ pl p s fs, parseLine line = some pl ∧ c.catalog[p]? = some s ∧ s.name = pl.mnemonic
        ∧ (∀ q r, q < p → c.catalog[q]? = some r → r.name ≠ pl.mnemonic)
        ∧ rawDecode c word = .recognised p s.kind fs
        ∧ fs.map (·.1) = s.fields.map (·.1)
        ∧ fs.map (fun e => uint e.2)
          = pl.args.map (fun a => if a.all isDigit then decimalValue a else (table.lookup a).getD 0)
        ∧ encodeWord c p (fs.map fun e => uint e.2) = some word

/-- R78: the operation `assemble` is `load_prog` of the words assembled at the load cursor: they stand from the cursor on, which
advances past them, or the capacity error leaves the state as it was; an assembler error changes nothing. -/
def Obligations.AssembleLoadsTheWords : Prop :=
  ∀ (lines : List Text) (s : State), s.status ≠ .running →
    (∀ e, assemble s.cfg s.cursor lines = .error e →
      hostOp (.assemble lines) (.ready s) = .failed (.assembler e) s)
    ∧ ∀ words, assemble s.cfg s.cursor lines = .ok words →
      hostOp (.assemble lines) (.ready s) = hostOp (.loadProg words) (.ready s)
      ∧ (s.cfg.numSlots - s.cursor < words.length → hostOp (.assemble lines) (.ready s) = .failed .capacity s)
      ∧ (s.cfg.wf = true → words.length ≤ s.cfg.numSlots - s.cursor →
        ∃ t, hostOp (.assemble lines) (.ready s) = .done t
          ∧ (∀ k w, words[k]? = some w → t.slot (s.cursor + k) = w)
          ∧ (∀ a, (a < s.cursor ∨ s.cursor + words.length ≤ a) → t.slot a = s.slot a)
          ∧ t = { s with commands := t.commands, cursor := s.cursor + words.length })

/-- R75, R77: a label defined on the line at position `n` of a source that passes pass 1 resolves to the absolute index
`start + n`, whichever line refers to it, before or after. -/
def Obligations.LabelsResolveToAbsoluteIndices : Prop :=
  ∀ (start : Nat) (lines : List Text) (table : LabelTable), collectLabels start lines [] = .ok table →
    ∀ (n : Nat) (line : Text) (pl : ParsedLine) (l : Text),
      lines[n]? = some line → parseLine line = some pl → pl.label = some l →
      table.lookup l = some (start + n) ∧ (l.all isDigit = false → argValue table l = start + n)
end

