-- ==== Sys2Proof/Laws/Bits.lean ====
section
/-! SUPPORT. The small lemmas of the bit-vector operations: widths, the two conversions and how they meet slicing and
concatenation. -/

namespace Sys2Proof

@[simp] theorem length_zeros (n : Nat) : (zeros n).length = n := List.length_replicate

@[simp] theorem length_bitsN (n k : Nat) : (bitsN n k).length = n := by
  induction n with
  | zero => rfl
  | succ n ih => simp [bitsN, ih]

theorem uint_lt (v : Bits) : uint v < 2 ^ v.length := by
  induction v with
  | nil => simp [uint]
  | cons b v ih =>
    have hb : b.toNat ≤ 1 := Bool.toNat_le b
    have : b.toNat * 2 ^ v.length ≤ 1 * 2 ^ v.length := Nat.mul_le_mul_right _ hb
    simp only [uint, List.length_cons, pow_succ]
    omega

theorem uint_bitsN_mod (n k : Nat) : uint (bitsN n k) = k % 2 ^ n := by
  induction n with
  | zero => simp [bitsN, uint, Nat.mod_one]
  | succ n ih =>
    have hb : (k / 2 ^ n % 2 == 1).toNat = k / 2 ^ n % 2 := by
      rcases Nat.mod_two_eq_zero_or_one (k / 2 ^ n) with h | h <;> simp [h]
    simp only [bitsN, uint, length_bitsN, ih, hb, pow_succ]
    rw [Nat.mod_mul, Nat.mul_comm]
    omega

theorem uint_bitsN {n k : Nat} (h : k < 2 ^ n) : uint (bitsN n k) = k := by
  rw [uint_bitsN_mod, Nat.mod_eq_of_lt h]

theorem bitsN_mod (n k : Nat) : bitsN n (k % 2 ^ n) = bitsN n k := by
  suffices h : ∀ m, n ≤ m → bitsN n (k % 2 ^ m) = bitsN n k from h n le_rfl
  induction n with
  | zero => intros; rfl
  | succ n ih =>
    intro m hm
    have hd : k % 2 ^ m / 2 ^ n % 2 = k / 2 ^ n % 2 := by
      obtain ⟨d, rfl⟩ := Nat.exists_eq_add_of_le hm
      rw [show 2 ^ (n + 1 + d) = 2 ^ n * (2 * 2 ^ d) by rw [pow_add, pow_succ, Nat.mul_assoc],
        Nat.mod_mul_right_div_self, Nat.mod_mul_right_mod]
    simp only [bitsN, hd, ih m (by omega)]

theorem bitsN_uint (v : Bits) : bitsN v.length (uint v) = v := by
  induction v with
  | nil => rfl
  | cons b v ih =>
    have h : bitsN v.length (b.toNat * 2 ^ v.length + uint v) = v := by
      rw [← bitsN_mod, Nat.mul_add_mod_self_right, bitsN_mod, ih]
    have hd : (b.toNat * 2 ^ v.length + uint v) / 2 ^ v.length = b.toNat := by
      rw [Nat.mul_comm, Nat.mul_add_div (Nat.two_pow_pos _), Nat.div_eq_of_lt (uint_lt v), Nat.add_zero]
    simp only [uint, List.length_cons, bitsN, hd, h]
    cases b <;> rfl

theorem uint_inj {u v : Bits} (hl : u.length = v.length) (h : uint u = uint v) : u = v := by
  rw [← bitsN_uint u, ← bitsN_uint v, hl, h]

@[simp] theorem uint_zeros (n : Nat) : uint (zeros n) = 0 := by
  induction n with
  | zero => rfl
  | succ n ih => simpa [zeros, List.replicate_succ, uint] using ih

@[simp] theorem bitsN_zero (n : Nat) : bitsN n 0 = zeros n :=
  uint_inj (by simp) (by simp [uint_bitsN_mod])

theorem uint_append (u v : Bits) : uint (u ++ v) = uint u * 2 ^ v.length + uint v := by
  induction u with
  | nil => simp [uint]
  | cons b u ih => simp only [List.cons_append, uint, ih, List.length_append, pow_add]; ring

theorem bitsN_add (a b k : Nat) : bitsN (a + b) k = bitsN a (k / 2 ^ b) ++ bitsN b k := by
  induction a with
  | zero => simp [bitsN]
  | succ a ih =>
    rw [Nat.succ_add]
    simp only [bitsN, ih, List.cons_append, Nat.div_div_eq_div_mul, ← pow_add, Nat.add_comm b a]

@[simp] theorem length_slice {v : Bits} {off len : Nat} (h : off + len ≤ v.length) :
    (slice v off len).length = len := by
  simp only [slice, List.length_take, List.length_drop]
  omega

/-- A slice of a number's digits is the number shifted: the bridge between positions (R15) and bit numbers (R17). -/
theorem slice_bitsN {n off len k : Nat} (h : off + len ≤ n) :
    slice (bitsN n k) off len = bitsN len (k / 2 ^ (n - off - len)) := by
  obtain ⟨d, rfl⟩ := Nat.exists_eq_add_of_le h
  rw [show off + len + d - off - len = d by omega, Nat.add_assoc, bitsN_add off, bitsN_add len, slice]
  simp

/-- R17: a slice in conventional bit numbers, the empty one at either end included. -/
theorem slice_eq_bitRange {v : Bits} {off len : Nat} (h : off + len ≤ v.length) :
    slice v off len = bitRange v ((v.length : Int) - 1 - off) (v.length - off - len) := by
  rw [bitRange]
  congr 1 <;> omega

theorem slice_zeros {n off len : Nat} (h : off + len ≤ n) : slice (zeros n) off len = zeros len := by
  rw [← bitsN_zero n, slice_bitsN h, Nat.zero_div, bitsN_zero]

end Sys2Proof
end

