-- ==== Sys2Proof/Laws/Decode.lean ====
section
/-! SUPPORT. The small lemmas of the decoder: what a well-formed configuration says of one shape, what the cut fields are, and
the two inversions: of a decode that recognises an instruction, and of the instruction put together from fields. -/

namespace Sys2Proof

variable {c : Config} {word : Bits} {p : Nat} {i : Instr}

/-- What R8, R9 and R10 say of the shape at a catalog position. -/
theorem shape_of_wf {s : Shape} (h : c.wf = true) (hs : c.catalog[p]? = some s) :
    c.copSize + s.fieldBits ≤ c.commandSize ∧ s.wfKind = true
      ∧ ∀ f ∈ s.fields, f.1 = .literal → f.2 = c.literalSize := by
  simp only [Config.wf, Config.wfShape, Config.wfFit, Config.wfLiteral, Bool.and_eq_true, List.all_eq_true,
    decide_eq_true_eq, Bool.or_eq_true, bne_iff_ne, beq_iff_eq] at h
  have hp := h.2 s (List.mem_of_getElem? hs)
  exact ⟨hp.1.1, hp.1.2, fun f hf hl => (hp.2 f hf).resolve_left (by simp [hl])⟩

/-- What R9 says of a shape, as propositions. -/
theorem wfKind_iff {s : Shape} : s.wfKind = true ↔
    (s.fields.map (·.1)).Nodup ∧ (∀ f ∈ s.fields.map (·.1), f ∈ s.kind.fieldNames)
      ∧ (∀ f ∈ s.kind.fieldNames, f ∈ s.fields.map (·.1)) ∧ ∀ f ∈ s.fields, 1 ≤ f.2 := by
  simp only [Shape.wfKind, Bool.and_eq_true, List.all_eq_true, List.contains_iff_mem, decide_eq_true_eq, and_assoc]

/-- R61: the opcode in conventional bit numbers, the empty field included. -/
theorem opcode_eq_bitRange (h : word.length = c.commandSize) (hc : c.copSize ≤ c.commandSize) :
    opcode c word = uint (bitRange word ((c.commandSize : Int) - 1) (c.commandSize - c.copSize)) := by
  rw [opcode, slice_eq_bitRange (by omega), h]
  simp

/-- R7: a catalog position is expressible in the opcode field. -/
theorem position_lt {s : Shape} (h : c.wf = true) (hs : c.catalog[p]? = some s) : p < 2 ^ c.copSize := by
  simp only [Config.wf, Config.wfCop, Bool.and_eq_true, decide_eq_true_eq] at h
  have := (List.getElem?_eq_some_iff.1 hs).1
  omega

/-! ## Cut fields -/

theorem names_cutFields (word : Bits) (off : Nat) (fs : List (FieldName × Nat)) :
    (cutFields word (fieldSlices off fs)).map (·.1) = fs.map (·.1) := by
  induction fs generalizing off with
  | nil => rfl
  | cons f fs ih =>
    simp only [fieldSlices, cutFields, List.map_cons] at *
    simpa using ih _

/-- A cut field has the width its shape declares, if the fields fit in the word. -/
theorem length_of_mem_cutFields {off : Nat} {fs : List (FieldName × Nat)} {n : FieldName} {v : Bits}
    (h : off + (fs.map (·.2)).sum ≤ word.length) (hm : (n, v) ∈ cutFields word (fieldSlices off fs)) :
    ∃ w, (n, w) ∈ fs ∧ v.length = w := by
  induction fs generalizing off with
  | nil => simp [cutFields, fieldSlices] at hm
  | cons f fs ih =>
    simp only [List.map_cons, List.sum_cons] at h
    simp only [cutFields, fieldSlices, List.map_cons, List.mem_cons] at hm
    rcases hm with hm | hm
    · cases hm
      exact ⟨f.2, by simp, length_slice (by omega)⟩
    · obtain ⟨w, hw, hl⟩ := ih (off := off + f.2) (by omega) hm
      exact ⟨w, List.mem_cons_of_mem _ hw, hl⟩

theorem fieldVector_of_mem {fs : List (FieldName × Bits)} {n : FieldName} {v : Bits}
    (h : (fs.map (·.1)).Nodup) (hm : (n, v) ∈ fs) : fieldVector fs n = some v := by
  induction fs with
  | nil => simp at hm
  | cons e fs ih =>
    simp only [List.map_cons, List.nodup_cons] at h
    rcases List.mem_cons.1 hm with rfl | hm
    · simp [fieldVector]
    · have hne : n ≠ e.1 := fun he => h.1 (he ▸ List.mem_map_of_mem (f := (·.1)) hm)
      simp [fieldVector, hne, ih h.2 hm]

theorem mem_of_fieldVector {fs : List (FieldName × Bits)} {n : FieldName} {v : Bits}
    (h : fieldVector fs n = some v) : (n, v) ∈ fs := by
  induction fs with
  | nil => simp [fieldVector] at h
  | cons e fs ih =>
    unfold fieldVector at h
    split at h
    · rename_i he
      cases h
      simp [he]
    · exact List.mem_cons_of_mem _ (ih h)

/-! ## Inversions -/

/-- A decode that answers an instruction: the position is the opcode value, and the instruction is put together from the
slices of the shape there. -/
theorem decode_recognised (h : decode c word = .recognised p i) :
    p = opcode c word ∧ ∃ s, c.catalog[p]? = some s
      ∧ Instr.ofFields (cutFields word (fieldSlices c.copSize s.fields)) s.kind = some i := by
  unfold decode rawDecode at h
  cases hs : c.catalog[opcode c word]? with
  | none => simp [hs] at h
  | some s =>
    simp only [hs, fieldSliceMatrix] at h
    split at h
    · rename_i i' hi
      cases h
      exact ⟨rfl, s, hs, hi⟩
    · cases h

/-- An instruction put together from fields has the kind, and holds the value of every field the kind names. -/
theorem ofFields_some {fs : List (FieldName × Bits)} {k : Kind} (h : Instr.ofFields fs k = some i) :
    i.kind = k
      ∧ (∀ f ∈ k.fieldNames, f ≠ .literal → ∃ v, fieldVector fs f = some v ∧ i.indexField f = some (uint v))
      ∧ (.literal ∈ k.fieldNames → ∃ v, fieldVector fs .literal = some v ∧ i.literalField = some v) := by
  cases k <;> simp only [Instr.ofFields, indexValue, Option.pure_def, Option.bind_eq_bind, Option.bind_eq_some_iff,
    Option.map_eq_some_iff, Option.some.injEq] at h
  case mul =>
    obtain ⟨_, ⟨a, ha, rfl⟩, _, ⟨b, hb, rfl⟩, _, ⟨d, hd, rfl⟩, rfl⟩ := h
    simp [Instr.kind, Kind.fieldNames, Instr.indexField, ha, hb, hd]
  case stl =>
    obtain ⟨_, ⟨a, ha, rfl⟩, v, hv, rfl⟩ := h
    simp [Instr.kind, Kind.fieldNames, Instr.indexField, Instr.literalField, ha, hv]
  case ldra =>
    obtain ⟨v, hv, rfl⟩ := h
    simp [Instr.kind, Kind.fieldNames, Instr.literalField, hv]
  case ld | st | mov =>
    obtain ⟨_, ⟨a, ha, rfl⟩, _, ⟨b, hb, rfl⟩, rfl⟩ := h
    simp [Instr.kind, Kind.fieldNames, Instr.indexField, ha, hb]
  case jmpc | decr | jmp | push | pop =>
    obtain ⟨_, ⟨a, ha, rfl⟩, rfl⟩ := h
    simp [Instr.kind, Kind.fieldNames, Instr.indexField, ha]
  case nop | ret | pushra | popra =>
    subst h
    simp [Instr.kind, Kind.fieldNames]

end Sys2Proof
end

