-- ==== Sys2Proof/Laws/Memory.lean ====
section
/-! SUPPORT. The laws of a memory: a read after a write, the canonical form, and that canonical memories with equal reads are
equal data. The read laws hold of every list, canonical or not. -/

namespace Sys2Proof.Machine

variable {w n a b : Nat} {v : Bits} {m : Memory}

@[simp] theorem Memory.read_nil : Memory.read w [] a = zeros w := rfl

theorem Memory.read_insert_same : Memory.read w (Memory.insert a v m) a = v := by
  induction m with
  | nil => simp [Memory.insert, Memory.read]
  | cons e m ih =>
    unfold Memory.insert
    split
    · simp [Memory.read]
    split
    · simp [Memory.read]
    · rename_i h
      simp [Memory.read, h, ih]

theorem Memory.read_insert_other (h : b ≠ a) : Memory.read w (Memory.insert a v m) b = Memory.read w m b := by
  induction m with
  | nil => simp [Memory.insert, Memory.read, h]
  | cons e m ih =>
    unfold Memory.insert
    split
    · simp [Memory.read, h]
    split
    · rename_i h'
      simp [Memory.read, h, ← h']
    · simp [Memory.read, ih]

theorem Memory.read_erase_same : Memory.read w (m.erase a) a = zeros w := by
  induction m with
  | nil => rfl
  | cons e m ih =>
    by_cases h : e.1 = a
    · simpa [Memory.erase, h] using ih
    · simpa [Memory.erase, h, Memory.read, Ne.symm h] using ih

theorem Memory.read_erase_other (h : b ≠ a) : Memory.read w (m.erase a) b = Memory.read w m b := by
  induction m with
  | nil => rfl
  | cons e m ih =>
    by_cases he : e.1 = a
    · simpa [Memory.erase, he, Memory.read, h] using ih
    · simp only [Memory.erase] at ih
      simp [Memory.erase, he, Memory.read, ih]

/-- A read after a write to the same place gives the value written. -/
@[simp] theorem Memory.read_write_same : Memory.read w (Memory.write w m a v) a = v := by
  unfold Memory.write
  split
  · rename_i h
    rw [Memory.read_erase_same, h, Memory.unlisted]
  · exact Memory.read_insert_same

/-- A write leaves every other place alone. -/
theorem Memory.read_write_other (h : b ≠ a) : Memory.read w (Memory.write w m a v) b = Memory.read w m b := by
  unfold Memory.write
  split
  · exact Memory.read_erase_other h
  · exact Memory.read_insert_other h

/-! ## The canonical form -/

@[simp] theorem Memory.wf_nil : Memory.wf w n [] = true := rfl

/-- The two parts of the canonical form, as propositions. -/
theorem Memory.wf_iff :
    Memory.wf w n m = true ↔ m.Pairwise (fun e f => e.1 < f.1) ∧ ∀ e ∈ m, Memory.entryOk w n e = true := by
  have h : m.rising = true ↔ m.Pairwise (fun e f => e.1 < f.1) := by
    induction m with
    | nil => simp [Memory.rising]
    | cons e m ih => simp [Memory.rising, ih]
  simp [Memory.wf, h]

theorem Memory.mem_insert {e : Cell} (h : e ∈ Memory.insert a v m) : e = (a, v) ∨ e ∈ m := by
  induction m with
  | nil => simpa [Memory.insert] using h
  | cons f m ih =>
    unfold Memory.insert at h
    split at h
    · simpa using h
    split at h
    · simp only [List.mem_cons] at h ⊢
      tauto
    · simp only [List.mem_cons] at h ⊢
      tauto

theorem Memory.pairwise_insert (h : m.Pairwise (fun e f => e.1 < f.1)) :
    (Memory.insert a v m).Pairwise (fun e f => e.1 < f.1) := by
  induction m with
  | nil => simp [Memory.insert]
  | cons e m ih =>
    rw [List.pairwise_cons] at h
    unfold Memory.insert
    split
    · rename_i h1
      refine List.pairwise_cons.2 ⟨fun f hf => ?_, List.pairwise_cons.2 h⟩
      rcases List.mem_cons.1 hf with rfl | hf
      · exact h1
      · exact Nat.lt_trans h1 (h.1 f hf)
    split
    · rename_i h1
      exact List.pairwise_cons.2 ⟨fun f hf => h1 ▸ h.1 f hf, h.2⟩
    · refine List.pairwise_cons.2 ⟨fun f hf => ?_, ih h.2⟩
      rcases Memory.mem_insert hf with rfl | hf
      · simp only
        omega
      · exact h.1 f hf

/-- Every write of a `w`-bit value to an existing place keeps the canonical form. -/
theorem Memory.wf_write (h : Memory.wf w n m = true) (ha : a < n) (hv : v.length = w) :
    Memory.wf w n (Memory.write w m a v) = true := by
  rw [Memory.wf_iff] at h ⊢
  unfold Memory.write
  split
  · exact ⟨h.1.sublist List.filter_sublist, fun e he => h.2 e (List.mem_of_mem_filter he)⟩
  · rename_i hz
    refine ⟨Memory.pairwise_insert h.1, fun e he => ?_⟩
    rcases Memory.mem_insert he with rfl | he
    · simp [Memory.entryOk, ha, hv, hz]
    · exact h.2 e he

/-- Reading where nothing is listed. -/
theorem Memory.read_of_forall_ne (h : ∀ e ∈ m, e.1 ≠ a) : Memory.read w m a = zeros w := by
  induction m with
  | nil => rfl
  | cons e m ih =>
    simp only [List.mem_cons, forall_eq_or_imp] at h
    simp [Memory.read, Ne.symm h.1, ih h.2]

/-- Reading an entry of a memory whose indices rise. -/
theorem Memory.read_of_mem {e : Cell} (h : m.Pairwise (fun e f => e.1 < f.1)) (he : e ∈ m) :
    Memory.read w m e.1 = e.2 := by
  induction m with
  | nil => simp at he
  | cons f m ih =>
    rw [List.pairwise_cons] at h
    rcases List.mem_cons.1 he with rfl | he
    · simp [Memory.read]
    · have := h.1 e he
      simp [Memory.read, Nat.ne_of_gt this, ih h.2 he]

/-- Every element of a canonical memory has the width of its slot class (R32). -/
theorem Memory.length_read (h : Memory.wf w n m = true) : (Memory.read w m a).length = w := by
  rw [Memory.wf_iff] at h
  by_cases he : ∃ e ∈ m, e.1 = a
  · obtain ⟨e, he, rfl⟩ := he
    have := h.2 e he
    simp only [Memory.entryOk, Bool.and_eq_true, beq_iff_eq] at this
    rw [Memory.read_of_mem h.1 he, this.1.2]
  · push Not at he
    rw [Memory.read_of_forall_ne he, length_zeros]

/-- Canonical memories with equal reads are equal data. -/
theorem Memory.ext_read {m' : Memory} (h : Memory.wf w n m = true) (h' : Memory.wf w n m' = true)
    (hr : ∀ a, Memory.read w m a = Memory.read w m' a) : m = m' := by
  rw [Memory.wf_iff] at h h'
  have key : ∀ {p q : Memory}, p.Pairwise (fun e f => e.1 < f.1) → q.Pairwise (fun e f => e.1 < f.1) →
      (∀ e ∈ p, Memory.entryOk w n e = true) → (∀ a, Memory.read w p a = Memory.read w q a) → p ⊆ q := by
    intro p q hp hq hok hr e he
    by_contra hn
    have h1 := Memory.read_of_mem (w := w) hp he
    have hz := hok e he
    simp only [Memory.entryOk, Memory.unlisted, Bool.and_eq_true, bne_iff_ne] at hz
    by_cases hx : ∃ f ∈ q, f.1 = e.1
    · obtain ⟨f, hf, hfe⟩ := hx
      have h2 := Memory.read_of_mem (w := w) hq hf
      have : f = e := Prod.ext hfe (by rw [← h2, hfe, ← hr, h1])
      exact hn (this ▸ hf)
    · push Not at hx
      exact hz.2 (by rw [← h1, hr, Memory.read_of_forall_ne hx])
  have hp : m.Perm m' := by
    refine (List.perm_ext_iff_of_nodup ?_ ?_).2 fun e =>
      ⟨fun he => key h.1 h'.1 h.2 hr he, fun he => key h'.1 h.1 h'.2 (fun a => (hr a).symm) he⟩
    · exact h.1.imp fun hlt heq => by simp [heq] at hlt
    · exact h'.1.imp fun hlt heq => by simp [heq] at hlt
  exact hp.eq_of_pairwise (fun e f _ _ h1 h2 => absurd (Nat.lt_trans h1 h2) (Nat.lt_irrefl _)) h.1 h'.1

end Sys2Proof.Machine
end

