-- ==== Sys2Proof/Laws/HostOps.lean ====
section
/-! SUPPORT. What a host operation is on each kind of machine, what it leaves of the configuration, and what the loop of
`load_prog` and its rollback do, said once (spec/70_reset_and_hazards.md R124 to R129). -/

namespace Sys2Proof.Machine

variable {w n base k : Nat} {m : Memory}

theorem hostOp_running {op : HostOp} {s : State} (h : s.status = .running) :
    hostOp op (.ready s) = .refused .runInProgress := by simp [hostOp, h]

theorem hostOp_idle {op : HostOp} {s : State} (h : s.status ≠ .running) : hostOp op (.ready s) = hostIdle op s := by
  simp [hostOp, h]

@[simp] theorem decoderOf_withSizes (d : DecoderConfig) (cw lw cs ms rf : Nat) :
    decoderOf (d.withSizes cw lw cs ms rf) = d := rfl

/-- `init` answers the reset state or a refusal, never a failure. -/
theorem hostInit_cases (c : Config) :
    (c.wf = true ∧ hostInit c = .done (State.init c)) ∨ (c.wf = false ∧ hostInit c = .refused .illFormedConfig) := by
  cases h : c.wf <;> simp [hostInit, h]

/-- What `load_prog` can answer: whichever it is, only program memory and the cursor can differ. -/
theorem hostLoadProg_cases (words : List Bits) (s : State) :
    ∃ m, hostLoadProg words s = .done { s with commands := m, cursor := s.cursor + words.length }
      ∨ ∃ e, hostLoadProg words s = .failed e { s with commands := m } := by
  rw [hostLoadProg]
  split
  · exact ⟨s.commands, .inr ⟨_, rfl⟩⟩
  · split <;> rename_i m _
    · exact ⟨m, .inl rfl⟩
    · exact ⟨m, .inr ⟨_, rfl⟩⟩

/-- A host operation that answers a state, done or failed, is an `init` or leaves the configuration. -/
theorem hostIdle_cfg {op : HostOp} {s t : State} (h : hostIdle op s = .done t ∨ ∃ e, hostIdle op s = .failed e t) :
    t.cfg = s.cfg ∨ ∃ cw lw cs ms rf, op = .init cw lw cs ms rf := by
  have load (words : List Bits) (h : hostLoadProg words s = .done t ∨ ∃ e, hostLoadProg words s = .failed e t) :
      t.cfg = s.cfg := by
    obtain ⟨m, hm | ⟨e, hm⟩⟩ := hostLoadProg_cases words s <;> simp only [hm] at h <;> grind
  cases op with
  | init => exact .inr ⟨_, _, _, _, _, rfl⟩
  | loadProg words => exact .inl (load words h)
  | assemble lines =>
    simp only [hostIdle, hostAssemble] at h
    split at h
    · exact .inl (load _ h)
    · left
      grind
  | clear => left; grind [hostIdle, hostClear]
  | clearProg => left; grind [hostIdle, hostClearProg]
  | run => left; grind [hostIdle, State.startRun]
  | readOut => left; grind [hostIdle]

theorem read_zeroSlots (a : Nat) : Memory.read w (zeroSlots w base k m) a =
    if base ≤ a ∧ a < base + k then zeros w else Memory.read w m a := by
  induction k with
  | zero => simp [zeroSlots]
  | succ k ih =>
    simp only [zeroSlots]
    by_cases h : a = base + k
    · subst h
      simp
    · rw [Memory.read_write_other h, ih]
      split_ifs <;> first | rfl | omega

theorem wf_zeroSlots (h : Memory.wf w n m = true) (hb : base + k ≤ n) :
    Memory.wf w n (zeroSlots w base k m) = true := by
  induction k with
  | zero => exact h
  | succ k ih => exact Memory.wf_write (ih (by omega)) (by omega) (length_zeros w)

/-- The loop on words that all have the width: each is written at its place, nothing else changes, the canonical form
stays. -/
theorem loadWords_fit (words : List Bits) (h : ∀ v ∈ words, v.length = w) :
    ∃ m', loadWords w base k words m = (m', true)
      ∧ (∀ (j : Nat) (v : Bits), words[j]? = some v → Memory.read w m' (base + k + j) = v)
      ∧ (∀ a, (a < base + k ∨ base + k + words.length ≤ a) → Memory.read w m' a = Memory.read w m a)
      ∧ (Memory.wf w n m = true → base + k + words.length ≤ n → Memory.wf w n m' = true) := by
  induction words generalizing k m with
  | nil => exact ⟨m, rfl, by simp, by simp, fun hm _ => hm⟩
  | cons v rest ih =>
    obtain ⟨m', h1, h2, h3, h4⟩ :=
      ih (k := k + 1) (m := Memory.write w m (base + k) v) (fun u hu => h u (List.mem_cons_of_mem _ hu))
    refine ⟨m', by simp [loadWords, h v List.mem_cons_self, h1], fun j u hj => ?_, fun a ha => ?_, fun hm hn => ?_⟩
    · cases j with
      | zero =>
        obtain rfl : v = u := by simpa using hj
        rw [h3 _ (by omega)]
        simp
      | succ j =>
        rw [← h2 j u (by simpa using hj)]
        congr 1
        omega
    · rw [List.length_cons] at ha
      rw [h3 a (by omega), Memory.read_write_other (by omega)]
    · rw [List.length_cons] at hn
      exact h4 (Memory.wf_write hm (by omega) (h v List.mem_cons_self)) (by omega)

/-- The loop on words of which the one at position `j` is the first of another width: the slots written by this call are
zero again, nothing else changes, the canonical form stays. -/
theorem loadWords_misfit (words : List Bits) (j : Nat) (bad : Bits) (hj : words[j]? = some bad)
    (hb : bad.length ≠ w) (h : ∀ v ∈ words.take j, v.length = w) :
    ∃ m', loadWords w base k words m = (m', false)
      ∧ (∀ a, (base ≤ a ∧ a < base + k + j) → Memory.read w m' a = zeros w)
      ∧ (∀ a, (a < base ∨ base + k + j ≤ a) → Memory.read w m' a = Memory.read w m a)
      ∧ (Memory.wf w n m = true → base + k + words.length ≤ n → Memory.wf w n m' = true) := by
  induction words generalizing k m j with
  | nil => simp at hj
  | cons v rest ih =>
    cases j with
    | zero =>
      obtain rfl : v = bad := by simpa using hj
      refine ⟨zeroSlots w base k m, by simp [loadWords, hb], fun a ha => ?_, fun a ha => ?_, fun hm hn => ?_⟩
      · rw [read_zeroSlots, if_pos (by omega)]
      · rw [read_zeroSlots, if_neg (by omega)]
      · exact wf_zeroSlots hm (by omega)
    | succ j =>
      have hv : v.length = w := h v (by simp)
      obtain ⟨m', h1, h2, h3, h4⟩ := ih (k := k + 1) (m := Memory.write w m (base + k) v) j (by simpa using hj)
        (fun u hu => h u (by simp [hu]))
      refine ⟨m', by simp [loadWords, hv, h1], fun a ha => h2 a (by omega), fun a ha => ?_, fun hm hn => ?_⟩
      · rw [h3 a (by omega), Memory.read_write_other (by omega)]
      · rw [List.length_cons] at hn
        exact h4 (Memory.wf_write hm (by omega) hv) (by omega)

end Sys2Proof.Machine
end

