-- ==== Sys2Proof/Laws/State.lean ====
section
/-! SUPPORT. One lemma per field per update of the state, true by rfl, so that no proof unfolds a record update; and the
reads through the accessors after an update of another field. -/

namespace Sys2Proof.Machine

variable (s : State)

/-! ## setCell -/

@[simp] theorem State.setCell_cfg (a : Nat) (v : Bits) : (s.setCell a v).cfg = s.cfg := rfl
@[simp] theorem State.setCell_commands (a : Nat) (v : Bits) : (s.setCell a v).commands = s.commands := rfl
@[simp] theorem State.setCell_memory (a : Nat) (v : Bits) : (s.setCell a v).memory = Memory.write s.cfg.literalSize s.memory a v := rfl
@[simp] theorem State.setCell_registers (a : Nat) (v : Bits) : (s.setCell a v).registers = s.registers := rfl
@[simp] theorem State.setCell_stack (a : Nat) (v : Bits) : (s.setCell a v).stack = s.stack := rfl
@[simp] theorem State.setCell_ra (a : Nat) (v : Bits) : (s.setCell a v).ra = s.ra := rfl
@[simp] theorem State.setCell_cursor (a : Nat) (v : Bits) : (s.setCell a v).cursor = s.cursor := rfl
@[simp] theorem State.setCell_pc (a : Nat) (v : Bits) : (s.setCell a v).pc = s.pc := rfl
@[simp] theorem State.setCell_status (a : Nat) (v : Bits) : (s.setCell a v).status = s.status := rfl

/-! ## setReg -/

@[simp] theorem State.setReg_cfg (k : Nat) (v : Bits) : (s.setReg k v).cfg = s.cfg := rfl
@[simp] theorem State.setReg_commands (k : Nat) (v : Bits) : (s.setReg k v).commands = s.commands := rfl
@[simp] theorem State.setReg_memory (k : Nat) (v : Bits) : (s.setReg k v).memory = s.memory := rfl
@[simp] theorem State.setReg_registers (k : Nat) (v : Bits) : (s.setReg k v).registers = s.registers.set k v := rfl
@[simp] theorem State.setReg_stack (k : Nat) (v : Bits) : (s.setReg k v).stack = s.stack := rfl
@[simp] theorem State.setReg_ra (k : Nat) (v : Bits) : (s.setReg k v).ra = s.ra := rfl
@[simp] theorem State.setReg_cursor (k : Nat) (v : Bits) : (s.setReg k v).cursor = s.cursor := rfl
@[simp] theorem State.setReg_pc (k : Nat) (v : Bits) : (s.setReg k v).pc = s.pc := rfl
@[simp] theorem State.setReg_status (k : Nat) (v : Bits) : (s.setReg k v).status = s.status := rfl

/-! ## pushed -/

@[simp] theorem State.pushed_cfg (v : Bits) : (s.pushed v).cfg = s.cfg := rfl
@[simp] theorem State.pushed_commands (v : Bits) : (s.pushed v).commands = s.commands := rfl
@[simp] theorem State.pushed_memory (v : Bits) : (s.pushed v).memory = s.memory := rfl
@[simp] theorem State.pushed_registers (v : Bits) : (s.pushed v).registers = s.registers := rfl
@[simp] theorem State.pushed_stack (v : Bits) : (s.pushed v).stack = s.stack ++ [v] := rfl
@[simp] theorem State.pushed_ra (v : Bits) : (s.pushed v).ra = s.ra := rfl
@[simp] theorem State.pushed_cursor (v : Bits) : (s.pushed v).cursor = s.cursor := rfl
@[simp] theorem State.pushed_pc (v : Bits) : (s.pushed v).pc = s.pc := rfl
@[simp] theorem State.pushed_status (v : Bits) : (s.pushed v).status = s.status := rfl

/-! ## dropTop -/

@[simp] theorem State.dropTop_cfg : s.dropTop.cfg = s.cfg := rfl
@[simp] theorem State.dropTop_commands : s.dropTop.commands = s.commands := rfl
@[simp] theorem State.dropTop_memory : s.dropTop.memory = s.memory := rfl
@[simp] theorem State.dropTop_registers : s.dropTop.registers = s.registers := rfl
@[simp] theorem State.dropTop_stack : s.dropTop.stack = s.stack.dropLast := rfl
@[simp] theorem State.dropTop_ra : s.dropTop.ra = s.ra := rfl
@[simp] theorem State.dropTop_cursor : s.dropTop.cursor = s.cursor := rfl
@[simp] theorem State.dropTop_pc : s.dropTop.pc = s.pc := rfl
@[simp] theorem State.dropTop_status : s.dropTop.status = s.status := rfl

/-! ## setRa -/

@[simp] theorem State.setRa_cfg (v : Bits) : (s.setRa v).cfg = s.cfg := rfl
@[simp] theorem State.setRa_commands (v : Bits) : (s.setRa v).commands = s.commands := rfl
@[simp] theorem State.setRa_memory (v : Bits) : (s.setRa v).memory = s.memory := rfl
@[simp] theorem State.setRa_registers (v : Bits) : (s.setRa v).registers = s.registers := rfl
@[simp] theorem State.setRa_stack (v : Bits) : (s.setRa v).stack = s.stack := rfl
@[simp] theorem State.setRa_ra (v : Bits) : (s.setRa v).ra = v := rfl
@[simp] theorem State.setRa_cursor (v : Bits) : (s.setRa v).cursor = s.cursor := rfl
@[simp] theorem State.setRa_pc (v : Bits) : (s.setRa v).pc = s.pc := rfl
@[simp] theorem State.setRa_status (v : Bits) : (s.setRa v).status = s.status := rfl

/-! ## advance -/

@[simp] theorem State.advance_cfg : s.advance.cfg = s.cfg := rfl
@[simp] theorem State.advance_commands : s.advance.commands = s.commands := rfl
@[simp] theorem State.advance_memory : s.advance.memory = s.memory := rfl
@[simp] theorem State.advance_registers : s.advance.registers = s.registers := rfl
@[simp] theorem State.advance_stack : s.advance.stack = s.stack := rfl
@[simp] theorem State.advance_ra : s.advance.ra = s.ra := rfl
@[simp] theorem State.advance_cursor : s.advance.cursor = s.cursor := rfl
@[simp] theorem State.advance_pc : s.advance.pc = s.pc + 1 := rfl
@[simp] theorem State.advance_status : s.advance.status = s.status := rfl

/-! ## jump -/

@[simp] theorem State.jump_cfg (t : Nat) : (s.jump t).cfg = s.cfg := rfl
@[simp] theorem State.jump_commands (t : Nat) : (s.jump t).commands = s.commands := rfl
@[simp] theorem State.jump_memory (t : Nat) : (s.jump t).memory = s.memory := rfl
@[simp] theorem State.jump_registers (t : Nat) : (s.jump t).registers = s.registers := rfl
@[simp] theorem State.jump_stack (t : Nat) : (s.jump t).stack = s.stack := rfl
@[simp] theorem State.jump_ra (t : Nat) : (s.jump t).ra = s.ra := rfl
@[simp] theorem State.jump_cursor (t : Nat) : (s.jump t).cursor = s.cursor := rfl
@[simp] theorem State.jump_pc (t : Nat) : (s.jump t).pc = t := rfl
@[simp] theorem State.jump_status (t : Nat) : (s.jump t).status = s.status := rfl

/-! ## raise -/

@[simp] theorem State.raise_cfg (f : Fault) : (s.raise f).cfg = s.cfg := rfl
@[simp] theorem State.raise_commands (f : Fault) : (s.raise f).commands = s.commands := rfl
@[simp] theorem State.raise_memory (f : Fault) : (s.raise f).memory = s.memory := rfl
@[simp] theorem State.raise_registers (f : Fault) : (s.raise f).registers = s.registers := rfl
@[simp] theorem State.raise_stack (f : Fault) : (s.raise f).stack = s.stack := rfl
@[simp] theorem State.raise_ra (f : Fault) : (s.raise f).ra = s.ra := rfl
@[simp] theorem State.raise_cursor (f : Fault) : (s.raise f).cursor = s.cursor := rfl
@[simp] theorem State.raise_pc (f : Fault) : (s.raise f).pc = s.pc := rfl
@[simp] theorem State.raise_status (f : Fault) : (s.raise f).status = .fault f := rfl

/-! ## halt -/

@[simp] theorem State.halt_cfg : s.halt.cfg = s.cfg := rfl
@[simp] theorem State.halt_commands : s.halt.commands = s.commands := rfl
@[simp] theorem State.halt_memory : s.halt.memory = s.memory := rfl
@[simp] theorem State.halt_registers : s.halt.registers = s.registers := rfl
@[simp] theorem State.halt_stack : s.halt.stack = s.stack := rfl
@[simp] theorem State.halt_ra : s.halt.ra = s.ra := rfl
@[simp] theorem State.halt_cursor : s.halt.cursor = s.cursor := rfl
@[simp] theorem State.halt_pc : s.halt.pc = s.pc := rfl
@[simp] theorem State.halt_status : s.halt.status = .halted := rfl

/-! ## startRun -/

@[simp] theorem State.startRun_cfg : s.startRun.cfg = s.cfg := rfl
@[simp] theorem State.startRun_commands : s.startRun.commands = s.commands := rfl
@[simp] theorem State.startRun_memory : s.startRun.memory = s.memory := rfl
@[simp] theorem State.startRun_registers : s.startRun.registers = s.registers := rfl
@[simp] theorem State.startRun_stack : s.startRun.stack = s.stack := rfl
@[simp] theorem State.startRun_ra : s.startRun.ra = s.ra := rfl
@[simp] theorem State.startRun_cursor : s.startRun.cursor = s.cursor := rfl
@[simp] theorem State.startRun_pc : s.startRun.pc = 0 := rfl
@[simp] theorem State.startRun_status : s.startRun.status = .running := rfl

/-! ## init -/

@[simp] theorem State.init_cfg (c : Config) : (State.init c).cfg = c := rfl
@[simp] theorem State.init_commands (c : Config) : (State.init c).commands = [] := rfl
@[simp] theorem State.init_memory (c : Config) : (State.init c).memory = [] := rfl
@[simp] theorem State.init_registers (c : Config) : (State.init c).registers = List.replicate c.numRegs (zeros c.literalSize) := rfl
@[simp] theorem State.init_stack (c : Config) : (State.init c).stack = [] := rfl
@[simp] theorem State.init_ra (c : Config) : (State.init c).ra = zeros c.literalSize := rfl
@[simp] theorem State.init_cursor (c : Config) : (State.init c).cursor = 0 := rfl
@[simp] theorem State.init_pc (c : Config) : (State.init c).pc = 0 := rfl
@[simp] theorem State.init_status (c : Config) : (State.init c).status = .halted := rfl

end Sys2Proof.Machine
end

