-- ==== Sys2Proof/Laws/Ops.lean ====
section
/-! SUPPORT. What each shared operation can do, said once: the checked accesses, the end of a step, each meaning as one
equation in the order of its checks, and the step by status and instruction pointer. -/

namespace Sys2Proof.Machine

variable {s t : State}

/-! ## Checked accesses -/

theorem checkReg_eq (s : State) (k : Nat) :
    checkReg s k = if k < s.cfg.numRegs then .ok () else .error (.indexOutOfRange s.pc .registers k) := rfl

theorem readReg_eq (s : State) (k : Nat) :
    readReg s k = if k < s.cfg.numRegs then .ok (s.reg k) else .error (.indexOutOfRange s.pc .registers k) := by
  unfold readReg checkReg
  split <;> rfl

theorem writeReg_eq (s : State) (k : Nat) (v : Bits) :
    writeReg s k v = if k < s.cfg.numRegs then .ok (s.setReg k v) else .error (.indexOutOfRange s.pc .registers k) := by
  unfold writeReg checkReg
  split <;> rfl

theorem memRead_eq (s : State) (a : Nat) :
    memRead s a = if a < s.cfg.numCells then .ok (s.cell a) else .error (.indexOutOfRange s.pc .memory a) := by
  unfold memRead checkCell
  split <;> rfl

theorem memWrite_eq (s : State) (a : Nat) (v : Bits) :
    memWrite s a v = if a < s.cfg.numCells then .ok (s.setCell a v) else .error (.indexOutOfRange s.pc .memory a) := by
  unfold memWrite checkCell
  split <;> rfl

theorem popTop_nil (h : s.stack = []) : popTop s = .error (.emptyStack s.pc) := by simp [popTop, h]

theorem popTop_concat {st : List Bits} {v : Bits} (h : s.stack = st ++ [v]) : popTop s = .ok (v, s.dropTop) := by
  simp [popTop, h]

/-- A pop answers the last entry, and only of a stack that has one. -/
theorem popTop_ok {v : Bits} (h : popTop s = .ok (v, t)) : s.stack = s.stack.dropLast ++ [v] ∧ t = s.dropTop := by
  unfold popTop at h
  split at h
  · rename_i u hu
    cases h
    exact ⟨by simpa using (List.dropLast_append_getLast? _ hu).symm, rfl⟩
  · cases h

/-! ## Registers and cells after a write -/

theorem reg_setReg_same {k : Nat} {v : Bits} (h : k < s.registers.length) : (s.setReg k v).reg k = v := by
  simp [State.reg, h]

theorem reg_setReg_other {k j : Nat} {v : Bits} (h : j ≠ k) : (s.setReg k v).reg j = s.reg j := by
  simp [State.reg, List.getD_eq_getElem?_getD, List.getElem?_set_ne (Ne.symm h)]

@[simp] theorem cell_setCell_same (s : State) (a : Nat) (v : Bits) : (s.setCell a v).cell a = v := by
  simp [State.cell]

theorem cell_setCell_other {a b : Nat} {v : Bits} (h : b ≠ a) : (s.setCell a v).cell b = s.cell b := by
  simp [State.cell, Memory.read_write_other h]

/-! ## The end of a step -/

@[simp] theorem finish_ok (s t : State) : finish s (.ok t) = .next t := rfl

@[simp] theorem finish_error (s : State) (f : Fault) : finish s (.error f) = .next (s.raise f) := rfl

/-- A step ends with its writes or with a fault raised, and always with a next state. -/
theorem finish_next {r : Except Fault State} (h : finish s r = .next t) :
    r = .ok t ∨ ∃ f, r = .error f ∧ t = s.raise f := by
  cases r with
  | ok u => exact .inl (by simpa using h)
  | error f => exact .inr ⟨f, rfl, by simpa using h.symm⟩

/-! ## Each meaning as one equation -/

theorem execStl_eq (a : Nat) (v : Bits) (s : State) :
    execStl a v s = .next (if a < s.cfg.numCells then (s.setCell a v).advance
      else s.raise (.indexOutOfRange s.pc .memory a)) := by
  simp only [execStl, memWrite_eq]
  split_ifs <;> rfl

theorem execLd_eq (a r : Nat) (s : State) :
    execLd a r s = .next (if a < s.cfg.numCells then
        if r < s.cfg.numRegs then (s.setReg r (s.cell a)).advance else s.raise (.indexOutOfRange s.pc .registers r)
      else s.raise (.indexOutOfRange s.pc .memory a)) := by
  simp only [execLd, memRead_eq, writeReg_eq]
  split_ifs <;> rfl

theorem execSt_eq (a r : Nat) (s : State) :
    execSt a r s = .next (if r < s.cfg.numRegs then
        if a < s.cfg.numCells then (s.setCell a (s.reg r)).advance else s.raise (.indexOutOfRange s.pc .memory a)
      else s.raise (.indexOutOfRange s.pc .registers r)) := by
  simp only [execSt, readReg_eq, memWrite_eq]
  split_ifs <;> rfl

theorem execMul_eq (a b d : Nat) (s : State) :
    execMul a b d s = .next (if a < s.cfg.numRegs then
        if b < s.cfg.numRegs then
          if d < s.cfg.numRegs then (s.setReg d (product s.cfg.literalSize (s.reg a) (s.reg b))).advance
          else s.raise (.indexOutOfRange s.pc .registers d)
        else s.raise (.indexOutOfRange s.pc .registers b)
      else s.raise (.indexOutOfRange s.pc .registers a)) := by
  simp only [execMul, readReg_eq, writeReg_eq]
  split_ifs <;> rfl

theorem execDecr_eq (r : Nat) (s : State) :
    execDecr r s = .next (if r < s.cfg.numRegs then (s.setReg r (decrement s.cfg.literalSize (s.reg r))).advance
      else s.raise (.indexOutOfRange s.pc .registers r)) := by
  simp only [execDecr, readReg_eq, writeReg_eq]
  split_ifs <;> rfl

theorem execMov_eq (a d : Nat) (s : State) :
    execMov a d s = .next (if a < s.cfg.numRegs then
        if d < s.cfg.numRegs then (s.setReg d (s.reg a)).advance else s.raise (.indexOutOfRange s.pc .registers d)
      else s.raise (.indexOutOfRange s.pc .registers a)) := by
  simp only [execMov, readReg_eq, writeReg_eq]
  split_ifs <;> rfl

theorem execPush_eq (r : Nat) (s : State) :
    execPush r s = .next (if r < s.cfg.numRegs then (s.pushed (s.reg r)).advance
      else s.raise (.indexOutOfRange s.pc .registers r)) := by
  simp only [execPush, readReg_eq]
  split_ifs <;> rfl

theorem execPop_eq (r : Nat) (s : State) :
    execPop r s = .next (if r < s.cfg.numRegs then
        match s.stack.getLast? with
        | some v => (s.dropTop.setReg r v).advance
        | none => s.raise (.emptyStack s.pc)
      else s.raise (.indexOutOfRange s.pc .registers r)) := by
  simp only [execPop, popTop, checkReg_eq, writeReg_eq]
  by_cases h : r < s.cfg.numRegs
  · cases s.stack.getLast? <;> simp [bind, Except.bind, pure, Except.pure, finish, h]
  · simp [bind, Except.bind, finish, h]

theorem execPopra_eq (s : State) :
    execPopra s = .next (match s.stack.getLast? with
      | some v => (s.dropTop.setRa v).advance
      | none => s.raise (.emptyStack s.pc)) := by
  simp only [execPopra, popTop]
  cases s.stack.getLast? <;> rfl

/-! ## The step -/

/-- A step that answers a next state: the machine's configuration is well formed, and it ran, or it was halted and
stayed. -/
theorem step_next (h : step s = .next t) :
    s.cfg.wf = true ∧ ((s.status = .running ∧ runStep s = .next t) ∨ (s.status = .halted ∧ t = s)) := by
  unfold step at h
  split at h
  · rename_i hw
    refine ⟨hw, ?_⟩
    split at h
    · rename_i hs
      exact .inl ⟨hs, h⟩
    · rename_i hs
      cases h
      exact .inr ⟨hs, rfl⟩
    · cases h
  · cases h

/-- The four ways a running machine answers a next state. -/
theorem runStep_next (h : runStep s = .next t) :
    (s.pc = s.cfg.numSlots ∧ t = s.halt) ∨
    (s.cfg.numSlots < s.pc ∧ t = s.raise (.fetchOutOfRange s.pc)) ∨
    (s.pc < s.cfg.numSlots ∧ ∃ op, decode s.cfg (fetch s) = .unrecognised op ∧ t = s.advance) ∨
    (s.pc < s.cfg.numSlots ∧ ∃ op i, decode s.cfg (fetch s) = .recognised op i ∧ exec i s = .next t) := by
  unfold runStep at h
  split at h
  · rename_i hp
    cases h
    exact .inl ⟨hp, rfl⟩
  split at h
  · rename_i hp
    cases h
    exact .inr (.inl ⟨hp, rfl⟩)
  · rename_i h1 h2
    have hp : s.pc < s.cfg.numSlots := by omega
    split at h
    · rename_i op hd
      cases h
      exact .inr (.inr (.inl ⟨hp, op, hd, rfl⟩))
    · rename_i op i hd
      exact .inr (.inr (.inr ⟨hp, op, i, hd, h⟩))
    · cases h

end Sys2Proof.Machine
end

