-- ==== Sys2Proof/Laws/PerInstr.lean ====
section
/-! SUPPORT. The per-instruction family Rebuild: field vectors that hold an instruction's own field values make up that
instruction again (spec/30_encoding.md R63, R64, R69). -/

namespace Sys2Proof.Laws.Rebuild

open Sys2Proof

/-- The decoder's last part on the fields of `i`: every index field reads as the instruction's index, the literal as its
literal. -/
def Statement (i : Instr) : Prop :=
  ∀ fs : List (FieldName × Bits),
    (∀ f ∈ i.kind.fieldNames, f ≠ .literal → indexValue fs f = i.indexField f) →
    (.literal ∈ i.kind.fieldNames → fieldVector fs .literal = i.literalField) →
    Instr.ofFields fs i.kind = some i

theorem nop : Statement .nop := fun _ _ _ => rfl

theorem stl (a : Nat) (v : Bits) : Statement (.stl a v) := by
  intro fs h hl
  simp_all [Instr.kind, Kind.fieldNames, Instr.ofFields, Instr.indexField, Instr.literalField]

theorem ld (a r : Nat) : Statement (.ld a r) := by
  intro fs h _
  simp_all [Instr.kind, Kind.fieldNames, Instr.ofFields, Instr.indexField]

theorem jmpc (t : Nat) : Statement (.jmpc t) := by
  intro fs h _
  simp_all [Instr.kind, Kind.fieldNames, Instr.ofFields, Instr.indexField]

theorem mul (a b d : Nat) : Statement (.mul a b d) := by
  intro fs h _
  simp_all [Instr.kind, Kind.fieldNames, Instr.ofFields, Instr.indexField]

theorem st (a r : Nat) : Statement (.st a r) := by
  intro fs h _
  simp_all [Instr.kind, Kind.fieldNames, Instr.ofFields, Instr.indexField]

theorem decr (r : Nat) : Statement (.decr r) := by
  intro fs h _
  simp_all [Instr.kind, Kind.fieldNames, Instr.ofFields, Instr.indexField]

theorem jmp (t : Nat) : Statement (.jmp t) := by
  intro fs h _
  simp_all [Instr.kind, Kind.fieldNames, Instr.ofFields, Instr.indexField]

theorem push (r : Nat) : Statement (.push r) := by
  intro fs h _
  simp_all [Instr.kind, Kind.fieldNames, Instr.ofFields, Instr.indexField]

theorem pop (r : Nat) : Statement (.pop r) := by
  intro fs h _
  simp_all [Instr.kind, Kind.fieldNames, Instr.ofFields, Instr.indexField]

theorem ldra (v : Bits) : Statement (.ldra v) := by
  intro fs _ hl
  simp_all [Instr.kind, Kind.fieldNames, Instr.ofFields, Instr.literalField]

theorem ret : Statement .ret := fun _ _ _ => rfl

theorem pushra : Statement .pushra := fun _ _ _ => rfl

theorem popra : Statement .popra := fun _ _ _ => rfl

theorem mov (a b : Nat) : Statement (.mov a b) := by
  intro fs h _
  simp_all [Instr.kind, Kind.fieldNames, Instr.ofFields, Instr.indexField]

end Sys2Proof.Laws.Rebuild
end

