-- ==== Sys2Proof/Laws/Safety.lean ====
section
/-! SUPPORT. The invariant taken apart, and what it says of a read. -/

namespace Sys2Proof.Machine

/-- The parts of the invariant, as propositions. -/
theorem State.wf_iff (s : State) : s.wf = true ↔
    s.cfg.wf = true
      ∧ Memory.wf s.cfg.commandSize s.cfg.numSlots s.commands = true
      ∧ Memory.wf s.cfg.literalSize s.cfg.numCells s.memory = true
      ∧ s.registers.length = s.cfg.numRegs
      ∧ (∀ v ∈ s.registers, v.length = s.cfg.literalSize)
      ∧ (∀ v ∈ s.stack, v.length = s.cfg.literalSize)
      ∧ s.ra.length = s.cfg.literalSize
      ∧ s.cursorOk = true ∧ s.statusOk = true := by
  simp only [State.wf, allWidth, Bool.and_eq_true, List.all_eq_true, beq_iff_eq, and_assoc]

/-- The memories of the reset state have the canonical form. -/
theorem reset_memories_wf :
    Memory.wf State.reset.cfg.literalSize State.reset.cfg.numCells State.reset.memory = true
      ∧ Memory.wf State.reset.cfg.commandSize State.reset.cfg.numSlots State.reset.commands = true := ⟨rfl, rfl⟩

/-- R33: a slot at or past the cursor reads as zero. -/
theorem State.slot_of_cursor_le {s : State} (h : s.wf = true) {a : Nat} (ha : s.cursor ≤ a) :
    s.slot a = zeros s.cfg.commandSize := by
  have hc := ((State.wf_iff s).1 h).2.2.2.2.2.2.2.1
  simp only [State.cursorOk, Bool.and_eq_true, List.all_eq_true, decide_eq_true_eq] at hc
  exact Memory.read_of_forall_ne fun e he => by
    have := hc.2 e he
    omega

/-- R32: a register read has `L` digits. -/
theorem State.length_reg {s : State} (h : s.wf = true) (k : Nat) : (s.reg k).length = s.cfg.literalSize := by
  have hr := ((State.wf_iff s).1 h).2.2.2.2.1
  simp only [State.reg, List.getD_eq_getElem?_getD]
  cases hk : s.registers[k]? with
  | none => simp
  | some v => exact hr v (List.mem_of_getElem? hk)

end Sys2Proof.Machine
end

