-- ==== Sys2Proof/Tests/Slice0.lean ====
section
/-! SUPPORT. The model's own tests. Expected results are the vectors of spec/95_test_vectors.md (the section is named at each
group) or words written out bit by bit from the encodings of spec/30_encoding.md R70 and R71. Then one witness per
statement with hypotheses, at the boundary values of its clauses. -/

namespace Sys2Proof.Tests

open Sys2Proof Sys2Proof.Machine

/-! ## Configurations of spec/95_test_vectors.md and helpers -/

/-- `WIDE`: address fields one bit wider than their spaces. -/
def wideConfig : Config where
  commandsSize := 2
  commandSize  := 8
  copSize      := 2
  memorySize   := 1
  registerFile := 1
  literalSize  := 4
  catalog :=
    [ ⟨['N', 'O', 'P'], .nop, []⟩, ⟨['J', 'M', 'P'], .jmp, [(.commandAddress, 3)]⟩,
      ⟨['D', 'E', 'C', 'R'], .decr, [(.registerAddress, 2)]⟩,
      ⟨['S', 'T', 'L'], .stl, [(.memoryAddress, 2), (.literal, 4)]⟩ ]

/-- `ZPAD`: position 0 is not a no-op. -/
def zpadConfig : Config where
  commandsSize := 2
  commandSize  := 4
  copSize      := 1
  memorySize   := 0
  registerFile := 1
  literalSize  := 4
  catalog := [⟨['D', 'E', 'C', 'R'], .decr, [(.registerAddress, 1)]⟩, ⟨['N', 'O', 'P'], .nop, []⟩]

/-- `EX8` with DECR's field `w` bits wide. -/
def ex8Decr (w : Nat) : Config :=
  { ex8Config with catalog := [⟨[], .nop, []⟩, ⟨[], .decr, [(.registerAddress, w)]⟩, ⟨[], .jmp, [(.commandAddress, 3)]⟩] }

/-- A machine running the word `w` at slot 0, before any register is set. -/
def running (c : Config) (w : Nat) : State := runWord (bitsN c.commandSize w) (State.init c)

/-- The registers of `REF` from their values. -/
def regs8 (vs : List Nat) : List Bits := vs.map (bitsN 8)

/-- What holds of the state after one step. -/
def after (s : State) (p : State → Bool) : Bool :=
  match step s with
  | .next t => p t
  | _ => false

/-- A running `REF` machine with nothing loaded. -/
def refRun : State := State.reset.startRun

/-- A running `WIDE` machine with nothing loaded. -/
def wideRun : State := (State.init wideConfig).startRun

/-! ## WellFormed refuses each ill-formed term (spec/95 section 4) -/

theorem test_named_configs_wf :
    refConfig.wf = true ∧ ex8Config.wf = true ∧ wideConfig.wf = true ∧ zpadConfig.wf = true := by decide

theorem test_wfCop_refuses :
    Config.wf { ex8Config with catalog := List.replicate 5 ⟨[], .nop, []⟩ } = false := by decide

theorem test_wfFit_refuses : (ex8Decr 7).wf = false ∧ (ex8Decr 6).wf = true := by decide

theorem test_wfKind_refuses_wrong_name :
    Shape.wfKind ⟨[], .ld, [(.memoryAddress, 4), (.literal, 8)]⟩ = false := by decide

theorem test_wfKind_refuses_repeated_name :
    Shape.wfKind ⟨[], .decr, [(.registerAddress, 2), (.registerAddress, 2)]⟩ = false := by decide

theorem test_wfKind_refuses_empty_field : Shape.wfKind ⟨[], .decr, [(.registerAddress, 0)]⟩ = false := by decide

theorem test_wfLiteral_refuses :
    Config.wf { refConfig with catalog := [⟨[], .ldra, [(.literal, 4)]⟩] } = false := by decide

theorem test_wfRanges_refuses :
    Config.wf { ex8Config with literalSize := 0 } = false
      ∧ Config.wf { ex8Config with commandSize := 0, copSize := 0, catalog := [] } = false
      ∧ Config.wf { ex8Config with copSize := 9, catalog := [] } = false := by decide

/-- Field order within a shape is free (R9). -/
theorem test_wfKind_any_order :
    Shape.wfKind ⟨[], .st, [(.registerAddress, 2), (.memoryAddress, 4)]⟩ = true := by decide

/-- spec/95 section 2.1, encoder refusals: the nearest accepted operand and the first refused one. -/
theorem test_instr_wf_bounds :
    Instr.wf refConfig 6 (.decr 3) = true ∧ Instr.wf refConfig 6 (.decr 4) = false
      ∧ Instr.wf refConfig 1 (.stl 15 (bitsN 8 0)) = true ∧ Instr.wf refConfig 1 (.stl 16 (bitsN 8 0)) = false
      ∧ Instr.wf refConfig 10 (.ldra (bitsN 9 256)) = false ∧ Instr.wf refConfig 7 (.decr 3) = false
      ∧ Instr.wf refConfig 15 .nop = false := by decide

/-! ## Decoding, words written out bit by bit (R70, R71; spec/95 section 2.1) -/

theorem test_decode_nop : decodeTableWord 16 0b0000000000000000 = some .nop := by decide
theorem test_decode_stl :
    decodeTableWord 16 0b0001001111001000 = some (.stl 3 [true, true, false, false, true, false, false, false]) := by
  decide
theorem test_decode_ld : decodeTableWord 16 0b0010001101000000 = some (.ld 3 1) := by decide
theorem test_decode_jmpc : decodeTableWord 16 0b0011010000000000 = some (.jmpc 4) := by decide
theorem test_decode_mul : decodeTableWord 16 0b0100011011000000 = some (.mul 1 2 3) := by decide
theorem test_decode_st : decodeTableWord 16 0b0101010110000000 = some (.st 5 2) := by decide
theorem test_decode_decr_pad : decodeTableWord 16 0b0110111111111111 = some (.decr 3) := by decide
theorem test_decode_jmp : decodeTableWord 16 0b0111000000000000 = some (.jmp 0) := by decide
theorem test_decode_push : decodeTableWord 16 0b1000010000000000 = some (.push 1) := by decide
theorem test_decode_pop : decodeTableWord 16 0b1001100000000000 = some (.pop 2) := by decide
theorem test_decode_ldra :
    decodeTableWord 16 0b1010000001010000
      = some (.ldra [false, false, false, false, false, true, false, true]) := by decide
theorem test_decode_ret : decodeTableWord 16 0b1011000000000000 = some .ret := by decide
theorem test_decode_pushra : decodeTableWord 16 0b1100000000000000 = some .pushra := by decide
theorem test_decode_popra : decodeTableWord 16 0b1101000000000000 = some .popra := by decide
theorem test_decode_mov : decodeTableWord 16 0b1110011000000000 = some (.mov 1 2) := by decide
theorem test_decode_unrecognised :
    rawDecode refConfig (bitsN 16 0b1111000100100011) = .unrecognised 15
      ∧ rawDecode ex8Config (bitsN 8 0b11010101) = .unrecognised 3 := by decide
theorem test_decode_ex8 :
    decodeTableWord 8 0b01000000 = some (.decr 0) ∧ decodeTableWord 8 0b10000000 = some (.jmp 0)
      ∧ decodeTableWord 8 0b01111111 = some (.decr 3) ∧ decodeTableWord 8 0b00000000 = some .nop := by decide
/-- R17: `v[5:2]` of eight digits, one bit, and the two ends' empty ranges. -/
theorem test_bitRange :
    bitRange (bitsN 8 0b10110100) 5 2 = bitsN 4 0b1101 ∧ bitRange (bitsN 8 0b10110100) 7 7 = [true]
      ∧ bitRange (bitsN 8 0b10110100) 7 8 = [] ∧ bitRange (bitsN 8 0b10110100) (-1) 0 = [] := by decide
theorem test_encode :
    encode refConfig 1 (.stl 3 [true, true, false, false, true, false, false, false])
        = some (bitsN 16 0b0001001111001000)
      ∧ encode refConfig 4 (.mul 1 2 3) = some (bitsN 16 0b0100011011000000)
      ∧ encode ex8Config 1 (.decr 0) = some [false, true, false, false, false, false, false, false] := by decide

/-! ## One step of each instruction (spec/95 sections 2.2 to 2.6) -/

theorem test_nop : after { running refConfig 0x0000 with pc := 5 } (fun t => t.pc = 6 ∧ t.stack = []) = true := by
  decide
theorem test_unrecognised :
    step (running refConfig 0xF123) = .next { running refConfig 0xF123 with pc := 1 } := by rfl
theorem test_stl_last_cell :
    after (running refConfig 0x1FFF) (fun t => t.cell 15 = bitsN 8 255 ∧ t.pc = 1) = true := by decide
theorem test_stl_zero :
    after { running refConfig 0x1000 with memory := [(0, bitsN 8 77)] } (fun t => t.memory = [] ∧ t.pc = 1) = true := by
  decide
theorem test_wide_stl_out_of_range :
    after (running wideConfig 0b11101001)
      (fun t => t.status = .fault (.indexOutOfRange 0 .memory 2) ∧ t.memory = [] ∧ t.pc = 0) = true := by decide
theorem test_ld :
    after { running refConfig 0x2340 with memory := [(3, bitsN 8 200)], registers := regs8 [0, 9, 0, 0] }
      (fun t => t.registers = regs8 [0, 200, 0, 0] ∧ t.cell 3 = bitsN 8 200 ∧ t.pc = 1) = true := by decide
theorem test_st :
    after { running refConfig 0x5580 with registers := regs8 [0, 0, 42, 0] }
      (fun t => t.cell 5 = bitsN 8 42 ∧ t.registers = regs8 [0, 0, 42, 0] ∧ t.pc = 1) = true := by decide
theorem test_mul_overflow :
    after { running refConfig 0x46C0 with registers := regs8 [0, 20, 13, 0] }
      (fun t => t.registers = regs8 [0, 20, 13, 4]) = true := by decide
theorem test_mul_square_into_source :
    after { running refConfig 0x4540 with registers := regs8 [0, 15, 0, 0] }
      (fun t => t.registers = regs8 [0, 225, 0, 0]) = true := by decide
theorem test_decr_wraps :
    after (running refConfig 0x6C00) (fun t => t.registers = regs8 [0, 0, 0, 255] ∧ t.pc = 1) = true := by decide
theorem test_ex8_decr :
    after { running ex8Config 0b01000000 with registers := [bitsN 4 4, bitsN 4 0, bitsN 4 0, bitsN 4 0] }
      (fun t => t.reg 0 = [false, false, true, true] ∧ t.pc = 1) = true := by decide
theorem test_mov :
    after { running refConfig 0xE600 with registers := regs8 [0, 7, 0, 0] }
      (fun t => t.registers = regs8 [0, 7, 7, 0] ∧ t.pc = 1) = true := by decide
theorem test_jmpc_one_falls_through :
    after { running refConfig 0x3400 with registers := regs8 [1, 255, 0, 0] } (fun t => t.pc = 1) = true := by decide
theorem test_jmpc_above_one :
    after { running refConfig 0x3400 with registers := regs8 [255, 0, 0, 0] } (fun t => t.pc = 4) = true := by decide
theorem test_jmp : after (running refConfig 0x7F00) (fun t => t.pc = 15 ∧ t.ra = bitsN 8 0) = true := by decide
theorem test_ldra :
    after (running refConfig 0xA050)
      (fun t => t.ra = [false, false, false, false, false, true, false, true] ∧ t.pc = 1) = true := by decide
theorem test_ret : after { running refConfig 0xB000 with ra := bitsN 8 3 } (fun t => t.pc = 3 ∧ t.ra = bitsN 8 3) = true := by
  decide
theorem test_push :
    after { running refConfig 0x8400 with registers := regs8 [0, 7, 0, 0], stack := regs8 [1] }
      (fun t => t.stack = regs8 [1, 7] ∧ t.pc = 1) = true := by decide
theorem test_pop :
    after { running refConfig 0x9800 with stack := regs8 [1, 7] }
      (fun t => t.registers = regs8 [0, 0, 7, 0] ∧ t.stack = regs8 [1] ∧ t.pc = 1) = true := by decide
theorem test_pop_empty :
    after { running refConfig 0x9800 with registers := regs8 [0, 0, 5, 0] }
      (fun t => t.status = .fault (.emptyStack 0) ∧ t.registers = regs8 [0, 0, 5, 0] ∧ t.pc = 0) = true := by decide
theorem test_pushra :
    after { running refConfig 0xC000 with ra := bitsN 8 2 }
      (fun t => t.stack = regs8 [2] ∧ t.ra = bitsN 8 2 ∧ t.pc = 1) = true := by decide
theorem test_popra :
    after { running refConfig 0xD000 with ra := bitsN 8 9, stack := regs8 [2] }
      (fun t => t.ra = bitsN 8 2 ∧ t.stack = [] ∧ t.pc = 1) = true := by decide
theorem test_popra_empty :
    after { running refConfig 0xD000 with ra := bitsN 8 9 }
      (fun t => t.status = .fault (.emptyStack 0) ∧ t.ra = bitsN 8 9 ∧ t.pc = 0) = true := by decide

/-! ## The ends of a run (spec/95 sections 2.4, 2.6) and the status codes (R109) -/

theorem test_halts : after { refRun with pc := 16 } (fun t => t.status = .halted ∧ t.pc = 16) = true := by decide
theorem test_wide_jmp_to_slot_count : after (running wideConfig 0b01100000) (fun t => t.pc = 4) = true := by decide
theorem test_fetch_fault :
    after { wideRun with pc := 5 } (fun t => t.status = .fault (.fetchOutOfRange 5) ∧ t.status.code = 3) = true := by
  decide
theorem test_zero_word_is_first_entry :
    after (State.init zpadConfig).startRun (fun t => t.reg 0 = bitsN 4 15 ∧ t.pc = 1) = true := by decide
theorem test_word_after_reset_runs :
    step (State.reset.withFetchWord 16 0xA050) = exec (.ldra (bitsN 8 5)) (State.reset.withFetchWord 16 0xA050) := by rfl
theorem test_ex8_word_after_reset_runs :
    step (State.reset.withFetchWord 8 0x40) = exec (.decr 0) (State.reset.withFetchWord 8 0x40) := by rfl
theorem test_withFetchWord_sound : (State.reset.withFetchWord 16 0xA050).wf = true := by decide

/-! ## Host operations (spec/95 section 2.7) and the assembler (section 2.8) -/

/-- The decoder's part of `REF`. -/
def refDecoder : DecoderConfig := ⟨4, refConfig.catalog⟩

theorem test_init : hostOp (.init 16 8 4 4 2) (.blank refDecoder) = .done State.reset := by decide
theorem test_run_before_init : hostOp .run (.blank refDecoder) = .refused .beforeInit := by decide
theorem test_init_again_keeps_the_decoder :
    hostOp (.init 16 8 3 1 2) (.ready { State.reset with stack := [zeros 8], cursor := 4 })
      = .done (State.init { refConfig with commandsSize := 3, memorySize := 1 }) := by decide
theorem test_read_out :
    hostOp .readOut (.ready { State.reset with pc := 16 }) = .done { State.reset with pc := 16 }
      ∧ hostOp .readOut (.ready refRun) = .refused .runInProgress := by decide
theorem test_load_capacity :
    hostLoadProg (List.replicate 14 (bitsN 16 1)) { State.reset with cursor := 3 }
      = .failed .capacity { State.reset with cursor := 3 } := by decide
theorem test_load_rollback :
    hostLoadProg [bitsN 16 1, bitsN 16 2, bitsN 15 3] { State.reset with commands := [(2, bitsN 16 9)], cursor := 3 }
      = .failed .widthMismatch { State.reset with commands := [(2, bitsN 16 9)], cursor := 3 } := by decide
theorem test_load :
    hostLoadProg [bitsN 16 1, zeros 16, bitsN 16 2] State.reset
      = .done { State.reset with commands := [(0, bitsN 16 1), (2, bitsN 16 2)], cursor := 3 } := by decide
theorem test_assemble_unresolved_label :
    assemble refConfig 0 [['J', 'M', 'P', ' ', 'L', '7']] = .ok [bitsN 16 0x7000] := by decide
theorem test_assemble_forward_label :
    assemble refConfig 0 [['L', 'D', 'R', 'A', ' ', 'L', '1'], ['L', '1', ':', ' ', 'R', 'E', 'T']]
      = .ok [bitsN 16 0xA010, bitsN 16 0xB000] := by decide
theorem test_assemble_absolute_label :
    assemble refConfig 3 (sourceLines ['L', '0', ':', ' ', 'N', 'O', 'P', '\n', 'J', 'M', 'P', ' ', 'L', '0'])
      = .ok [bitsN 16 0x0000, bitsN 16 0x7300] := by decide
theorem test_assemble_syntax_errors :
    assemble refConfig 0 [['L', '0', ':', ' ', 'L', '1', ':', ' ', 'N', 'O', 'P']] = .error .syntaxError
      ∧ assemble refConfig 0 [['n', 'o', 'p']] = .error .syntaxError
      ∧ assemble refConfig 0 [['M', 'U', 'L', ' ', '1', ',', ' ', '2', ',', ' ', '3']] = .error .syntaxError
      ∧ assemble refConfig 0 [[]] = .error .syntaxError
      ∧ assemble refConfig 0 [['L', '0', ':', ' ', 'N', 'O', 'P'], ['L', '0', ':', ' ', 'N', 'O', 'P']]
        = .error .syntaxError := by decide
theorem test_assemble_other_errors :
    assemble refConfig 0 [['F', 'O', 'O']] = .error .unknownInstruction
      ∧ assemble refConfig 0 [['D', 'E', 'C', 'R']] = .error .argumentCount
      ∧ assemble refConfig 0 [['D', 'E', 'C', 'R', ' ', '1', ',', '2']] = .error .argumentCount
      ∧ assemble refConfig 0 [['D', 'E', 'C', 'R', ' ', '4']] = .error .fieldOverflow
      ∧ assemble refConfig 0 [['D', 'E', 'C', 'R', ' ', '3']] = .ok [bitsN 16 0x6C00] := by decide

/-! ## Witnesses: states and operands that meet each statement's hypotheses, at the clauses' boundary values -/

theorem witness_words : 0 < 65536 ∧ 65535 < 65536 ∧ 255 < 256 := by decide

/-- FieldSliceMatrixGivesEveryField, ArgumentsRoundTrip, EncodeOfDecode, PadBitsAreIgnored, EveryWordDecodes: the word
`MUL 1,2,3` and the same with pad digits. -/
theorem witness_recognised_word :
    refConfig.wf = true ∧ refConfig.catalog[4]?.map (·.kind) = some .mul ∧ (bitsN 16 0x46C0).length = refConfig.commandSize
      ∧ opcode refConfig (bitsN 16 0x46C0) = 4
      ∧ rawDecode refConfig (bitsN 16 0x46C0) = .recognised 4 .mul
          [(.firstOperand, [false, true]), (.secondOperand, [true, false]), (.registerAddress, [true, true])]
      ∧ decode refConfig (bitsN 16 0x46C0) = .recognised 4 (.mul 1 2 3)
      ∧ (fieldSliceMatrix refConfig 4)[2]? = some (.registerAddress, 8, 2)
      ∧ (bitsN 16 0x46C0).take 10 = (bitsN 16 0x46FF).take 10 := by decide

theorem witness_in_range_arguments :
    List.Forall₂ (fun (f : FieldName × Nat) a => a < 2 ^ f.2)
      [(.firstOperand, 2), (.secondOperand, 2), (.registerAddress, 2)] [0, 3, 3] := by decide

theorem witness_well_formed_instruction :
    Instr.wf refConfig 1 (.stl 15 (bitsN 8 255)) = true ∧ Instr.wf refConfig 14 (.mov 0 3) = true := by decide

/-- ZeroWordIsTheFirstEntry: both clauses, and EveryWordDecodes in an empty catalog. -/
theorem witness_empty_catalog :
    Config.wf { ex8Config with catalog := [] } = true ∧ refConfig.catalog[0]? = some ⟨['N', 'O', 'P'], .nop, []⟩ := by
  decide

/-- StepRunsTheDecodedInstruction. -/
theorem witness_step_runs :
    (running refConfig 0x46C0).cfg.wf = true ∧ (running refConfig 0x46C0).status = .running
      ∧ (running refConfig 0x46C0).pc < (running refConfig 0x46C0).cfg.numSlots
      ∧ decode (running refConfig 0x46C0).cfg (fetch (running refConfig 0x46C0)) = .recognised 4 (.mul 1 2 3) := by decide

/-- RunEndsExactlyAtTheSlotCount, FetchPastTheEndFaults: `i = N` and `i = N + 1`, and the steps there. -/
theorem witness_ends :
    refRun.cfg.wf = true ∧ refRun.status = .running ∧ refRun.cfg.numSlots = 16
      ∧ step { refRun with pc := 16 } = .next { refRun with pc := 16, status := .halted }
      ∧ step { refRun with pc := 17 } = .next { refRun with pc := 17, status := .fault (.fetchOutOfRange 17) } :=
  ⟨by decide, rfl, rfl, rfl, rfl⟩

/-- UnrecognisedWordOnlyAdvances: an unrecognised word in the last slot. -/
theorem witness_unrecognised :
    (15 : Nat) < refConfig.numSlots
      ∧ refConfig.catalog.length ≤ opcode refConfig
          (fetch { refRun with commands := [(15, bitsN 16 0xF000)], pc := 15 }) := by decide

/-- StoppedMachineTakesNoStep, OnlyIllFormedConfigsAreRefused. -/
theorem witness_stopped :
    State.reset.cfg.wf = true ∧ State.reset.status = .halted
      ∧ (refRun.raise (.emptyStack 0)).status = .fault (.emptyStack 0)
      ∧ step { refRun with cfg := { refConfig with literalSize := 0 } } = .refused .illFormedConfig :=
  ⟨by decide, rfl, rfl, rfl⟩

/-- The instruction statements' index clauses: the last element of each space and the first index past it; and the register
file's length. -/
theorem witness_index_bounds :
    15 < refRun.cfg.numCells ∧ refRun.cfg.numCells ≤ 16 ∧ 3 < refRun.cfg.numRegs ∧ refRun.cfg.numRegs ≤ 4
      ∧ refRun.registers.length = refRun.cfg.numRegs := by decide

/-- JmpcJumpsAboveOne: both sides of the comparison; DecrSubtractsOne: a zero register. -/
theorem witness_guard :
    1 < uint (State.reg { refRun with registers := regs8 [2, 0, 0, 0] } 0)
      ∧ uint (State.reg { refRun with registers := regs8 [1, 0, 0, 0] } 0) ≤ 1
      ∧ uint (refRun.reg 3) = 0 := by decide

/-- PopTakesTheTop, PopraLoadsTheTop, StackIsLastInFirstOut: a stack of one entry and the empty one. -/
theorem witness_stacks :
    (refRun.pushed (bitsN 8 7)).stack = [] ++ [bitsN 8 7] ∧ refRun.stack = [] ∧ refRun.status = .running
      ∧ exec (.push 1) refRun = .next (refRun.pushed (zeros 8)).advance
      ∧ (refRun.pushed (zeros 8)).advance.stack ≠ refRun.stack := ⟨rfl, rfl, rfl, rfl, by decide⟩

/-- The frame statements and the whole-machine rules: an `exec` that answers a next state, for one instruction of each
shape, on its effect and on a fault. -/
theorem witness_frames :
    (∃ t, exec (.mul 1 2 3) refRun = .next t) ∧ (∃ t, exec (.pop 2) refRun = .next t)
      ∧ (∃ t, exec (.st 5 2) refRun = .next t) ∧ (∃ t, exec (.jmpc 4) refRun = .next t)
      ∧ (∃ t, exec (.ldra []) refRun = .next t) ∧ (∃ t, exec .popra refRun = .next t) :=
  ⟨⟨_, rfl⟩, ⟨_, rfl⟩, ⟨_, rfl⟩, ⟨_, rfl⟩, ⟨_, rfl⟩, ⟨_, rfl⟩⟩

/-- FaultsArePrecise, StepNeverWritesProgramMemory, EmptyStackIsRaisedByPopsOnly: a step that ends in a fault. -/
theorem witness_fault_step :
    step (running refConfig 0x9800) = .next ((running refConfig 0x9800).raise (.emptyStack 0)) := by rfl

/-- IdlePortsChangeNothing: every clause has a kind with the port unmarked, and DefaultSuccessorIsTheNextSlot a kind that
is no transfer. -/
theorem witness_idle_ports :
    (portsOf .jmp).writeReg = none ∧ (portsOf .jmp).memWrite = none ∧ (portsOf .jmp).stack = .idle
      ∧ (portsOf .jmp).raLoad = false ∧ (portsOf .mul).transfer = false := by decide

/-- UnmarkedReadPortsAreNotRead: other registers, memory, `ra` and stack than `refRun`'s that agree where MUL, LD and NOP
read. -/
theorem witness_read_ports :
    (regs8 [9, 0, 0, 9]).length = refRun.registers.length
      ∧ (portsOf .mul).readA.bind (readIndexOf (.mul 1 2 3)) = some 1
      ∧ (portsOf .mul).readB.bind (readIndexOf (.mul 1 2 3)) = some 2
      ∧ State.reg { refRun with registers := regs8 [9, 0, 0, 9] } 1 = refRun.reg 1
      ∧ State.reg { refRun with registers := regs8 [9, 0, 0, 9] } 2 = refRun.reg 2
      ∧ (portsOf .ld).memRead.bind (Instr.indexField (.ld 5 3)) = some 5
      ∧ State.cell { refRun with memory := [(4, bitsN 8 9)] } 5 = refRun.cell 5
      ∧ (portsOf .nop).raRead = false ∧ (portsOf .nop).stack = .idle := by decide

/-- NarrowFieldsNeverFault, NarrowTargetsStayInRange: `REF` with a word loaded, and a RET to `N` exactly; `WIDE` does not
qualify. -/
theorem witness_narrow :
    (running refConfig 0x46C0).wf = true ∧ narrowIndices refConfig = true ∧ narrowTargets refConfig = true
      ∧ (running refConfig 0x46C0).status = .running
      ∧ (running refConfig 0x46C0).pc ≤ (running refConfig 0x46C0).cfg.numSlots
      ∧ uint (bitsN 8 16) ≤ refConfig.numSlots
      ∧ (∃ t, step (running refConfig 0x46C0) = .next t)
      ∧ narrowIndices wideConfig = false ∧ narrowTargets wideConfig = false :=
  ⟨by decide, by decide, by decide, by decide, by decide, by decide, ⟨_, rfl⟩, by decide, by decide⟩

/-- NarrowTargetsStayInRange: a RET with the return address `N`. -/
theorem witness_ret_to_slot_count :
    State.wf { running refConfig 0xB000 with ra := bitsN 8 16 } = true
      ∧ decode refConfig (fetch { running refConfig 0xB000 with ra := bitsN 8 16 }) = .recognised 11 .ret
      ∧ uint (bitsN 8 16) ≤ refConfig.numSlots := by decide

/-- ArithmeticLaws: widths, and each clause's value: 0, 1, a product that fits, one that does not. -/
theorem witness_arithmetic :
    (bitsN 8 0).length = 8 ∧ uint (bitsN 8 0) = 0 ∧ uint (bitsN 8 1) = 1
      ∧ uint (bitsN 8 15) * uint (bitsN 8 17) < 2 ^ 8 ∧ ¬ uint (bitsN 8 16) * uint (bitsN 8 16) < 2 ^ 8 := by decide

/-- StepKeepsTheInvariant: a state with something in every field, and a step from it. -/
theorem witness_invariant :
    State.wf { running refConfig 0x46C0 with
      memory := [(3, bitsN 8 200)], registers := regs8 [1, 2, 3, 4], stack := regs8 [5], ra := bitsN 8 6 } = true
      ∧ ∃ t, step { running refConfig 0x46C0 with
        memory := [(3, bitsN 8 200)], registers := regs8 [1, 2, 3, 4], stack := regs8 [5], ra := bitsN 8 6 } = .next t :=
  ⟨by decide, _, rfl⟩

/-- RunHasOneEnd: from the last slot of `EX8` a NOP and then the end of the run; with one step it is still running. -/
theorem witness_run :
    State.wf { (State.init ex8Config).startRun with pc := 7 } = true
      ∧ runFor 1 { (State.init ex8Config).startRun with pc := 7 }
        = .next { (State.init ex8Config).startRun with pc := 8 }
      ∧ runFor 2 { (State.init ex8Config).startRun with pc := 7 }
        = .next { State.init ex8Config with pc := 8 } := ⟨by decide, rfl, rfl⟩

/-- ResetMeetsTheInvariant, HostActsBetweenRunsAfterInit: sizes that are accepted and sizes that are not. -/
theorem witness_init_sizes :
    (refDecoder.withSizes 16 8 4 4 2).wf = true ∧ (refDecoder.withSizes 16 7 4 4 2).wf = false
      ∧ refRun.status = .running ∧ State.reset.status ≠ .running := by decide

/-- LoadProgAppendsOrRollsBack, HostOperationsKeepTheInvariant: the three clauses at their boundary: 14 words for 13 slots,
13 words for 13 slots, and a misfit in the last of them. -/
theorem witness_load :
    State.wf { State.reset with cursor := 3 } = true
      ∧ refConfig.numSlots - 3 < (List.replicate 14 (bitsN 16 1)).length
      ∧ (List.replicate 13 (bitsN 16 1)).length ≤ refConfig.numSlots - 3
      ∧ (List.replicate 12 (bitsN 16 1) ++ [bitsN 15 1])[12]? = some (bitsN 15 1)
      ∧ (bitsN 15 1).length ≠ refConfig.commandSize
      ∧ (∀ w ∈ (List.replicate 12 (bitsN 16 1) ++ [bitsN 15 1]).take 12, w.length = refConfig.commandSize) := by decide

/-- AssembleLoadsTheWords: a source that assembles at the cursor and fits, the same with one slot too few, and one that does
not assemble; HostActsBetweenRunsAfterInit, StackIsLastInFirstOut: a host operation that changes the stack. -/
theorem witness_assemble_loads :
    refConfig.wf = true ∧ State.reset.status ≠ .running
      ∧ assemble refConfig 15 [['R', 'E', 'T']] = .ok [bitsN 16 0xB000] ∧ [bitsN 16 0xB000].length ≤ refConfig.numSlots - 15
      ∧ refConfig.numSlots - 16 < [bitsN 16 0xB000].length
      ∧ assemble refConfig 0 [[]] = .error .syntaxError
      ∧ hostOp .clear (.ready { State.reset with stack := [zeros 8] }) = .done State.reset := by decide

/-- AssembledWordsAreCanonical, LabelsResolveToAbsoluteIndices. -/
theorem witness_assembled :
    assemble refConfig 3 [['L', '0', ':', ' ', 'N', 'O', 'P']] = .ok [bitsN 16 0]
      ∧ collectLabels 3 [['L', '0', ':', ' ', 'N', 'O', 'P']] [] = .ok [(['L', '0'], 3)]
      ∧ parseLine ['L', '0', ':', ' ', 'N', 'O', 'P'] = some ⟨some ['L', '0'], ['N', 'O', 'P'], []⟩
      ∧ (['L', '0'] : Text).all isDigit = false := by decide

end Sys2Proof.Tests
end

section
/-! The encoding family (spec/30_encoding.md): what the decoder and the encoder do on slices and concatenations, the loading of
assembled words, and the four statements that rest on them. -/

namespace Sys2Proof

variable {c : Config} {word : Bits} {p : Nat} {s : Shape}

/-! ## Slices -/

theorem slice_zero_eq_take (v : Bits) (len : Nat) : slice v 0 len = v.take len := rfl

/-- Adjacent slices join. -/
theorem slice_append_slice (v : Bits) (off a b : Nat) :
    slice v off a ++ slice v (off + a) b = slice v off (a + b) := by
  simp only [slice, List.take_add, List.drop_drop]

/-- A part of a concatenation is the slice at the length of what stands before it. -/
theorem slice_append_middle (u v t : Bits) {off len : Nat} (ho : off = u.length) (hl : len = v.length) :
    slice (u ++ (v ++ t)) off len = v := by
  subst ho hl
  simp [slice]

/-- R16: a slice is the vector of its own value. -/
theorem bitsN_uint_slice {v : Bits} {off len : Nat} (h : off + len ≤ v.length) :
    bitsN len (uint (slice v off len)) = slice v off len := by
  simpa only [length_slice h] using bitsN_uint (slice v off len)

/-! ## The field-slice matrix (R63) -/

theorem fieldSliceMatrix_of_shape (hs : c.catalog[p]? = some s) :
    fieldSliceMatrix c p = fieldSlices c.copSize s.fields := by
  simp only [fieldSliceMatrix, hs]

/-- R63: row `j`: the declared name and width, at the sum of the widths before it. -/
theorem getElem?_fieldSlices (off : Nat) (fs : List (FieldName × Nat)) (j : Nat) :
    (fieldSlices off fs)[j]? = fs[j]?.map fun f => (f.1, off + ((fs.take j).map (·.2)).sum, f.2) := by
  induction fs generalizing off j with
  | nil => simp [fieldSlices]
  | cons f fs ih =>
    cases j with
    | zero => simp [fieldSlices]
    | succ j => simp [fieldSlices, ih, Nat.add_assoc]

/-- No row reaches past the end of the fields. -/
theorem slice_end_le_of_mem_fieldSlices {off o w : Nat} {n : FieldName} {fs : List (FieldName × Nat)}
    (h : (n, o, w) ∈ fieldSlices off fs) : o + w ≤ off + (fs.map (·.2)).sum := by
  induction fs generalizing off with
  | nil => simp [fieldSlices] at h
  | cons f fs ih =>
    simp only [List.map_cons, List.sum_cons]
    rcases List.mem_cons.1 h with h | h
    · cases h
      omega
    · have := ih h
      omega

/-- The first row cut off. -/
theorem cutFields_cons (word : Bits) (off : Nat) (f : FieldName × Nat) (fs : List (FieldName × Nat)) :
    cutFields word (fieldSlices off (f :: fs))
      = (f.1, slice word off f.2) :: cutFields word (fieldSlices (off + f.2) fs) := rfl

/-- R63: `F.<name>` is defined exactly for the names of the fields. -/
theorem fieldVector_isSome_iff (fs : List (FieldName × Bits)) (n : FieldName) :
    (fieldVector fs n).isSome = true ↔ n ∈ fs.map (·.1) := by
  induction fs with
  | nil => simp [fieldVector]
  | cons e fs ih =>
    by_cases h : n = e.1
    · simp [fieldVector, h]
    · simp [fieldVector, h, ih]

/-! ## The decoder (R61, R62, R66) -/

/-- A word is recognised exactly at the catalog position its opcode value indexes, with the fields of the shape there. -/
theorem rawDecode_recognised_iff {k : Kind} {fs : List (FieldName × Bits)} :
    rawDecode c word = .recognised p k fs ↔
      opcode c word = p ∧ ∃ s, c.catalog[p]? = some s ∧ k = s.kind
        ∧ fs = cutFields word (fieldSlices c.copSize s.fields) := by
  unfold rawDecode
  cases hs : c.catalog[opcode c word]? with
  | none =>
    simp only [reduceCtorEq, false_iff]
    rintro ⟨rfl, s, hp, -⟩
    simp [hs] at hp
  | some s =>
    simp only [fieldSliceMatrix_of_shape hs, RawDecode.recognised.injEq]
    constructor
    · rintro ⟨rfl, rfl, rfl⟩
      exact ⟨rfl, s, hs, rfl, rfl⟩
    · rintro ⟨rfl, s', hs', rfl, rfl⟩
      cases hs.symm.trans hs'
      exact ⟨rfl, rfl, rfl⟩

theorem rawDecode_of_shape (hs : c.catalog[p]? = some s) (ho : opcode c word = p) :
    rawDecode c word = .recognised p s.kind (cutFields word (fieldSlices c.copSize s.fields)) :=
  rawDecode_recognised_iff.2 ⟨ho, s, hs, rfl, rfl⟩

theorem decode_of_shape {i : Instr} (hs : c.catalog[p]? = some s) (ho : opcode c word = p)
    (hi : Instr.ofFields (cutFields word (fieldSlices c.copSize s.fields)) s.kind = some i) :
    decode c word = .recognised p i := by
  simp only [decode, rawDecode_of_shape hs ho, hi]

theorem decode_of_no_shape (hs : c.catalog[p]? = none) (ho : opcode c word = p) :
    decode c word = .unrecognised p := by
  subst ho
  simp only [decode, rawDecode, hs]

/-- R61, R17: the opcode value of a word given as a number: its top `C` bits. -/
theorem opcode_bitsN {n : Nat} (h : c.copSize ≤ n) (k : Nat) :
    opcode c (bitsN n k) = k / 2 ^ (n - c.copSize) % 2 ^ c.copSize := by
  rw [opcode, slice_bitsN (by omega), uint_bitsN_mod, Nat.sub_zero]

/-- The opcode digits are those of the opcode value. -/
theorem bitsN_opcode (h : c.copSize ≤ word.length) : bitsN c.copSize (opcode c word) = word.take c.copSize := by
  rw [opcode, bitsN_uint_slice (by omega), slice_zero_eq_take]

/-! ## The encoder (R67) -/

/-- The arguments are in range: each below two to the width of its field (R67). -/
def ArgsInRange (fs : List (FieldName × Nat)) (args : List Nat) : Prop :=
  List.Forall₂ (fun f a => a < 2 ^ f.2) fs args

theorem encodeWord_of_shape (hs : c.catalog[p]? = some s) (args : List Nat) :
    encodeWord c p args = some (padWord c (encodeBody c p s args)) := by
  simp only [encodeWord, hs]

theorem length_padWord {v : Bits} (h : v.length ≤ c.commandSize) : (padWord c v).length = c.commandSize := by
  simp only [padWord, List.length_append, length_zeros]
  omega

theorem length_encodeFields {fs : List (FieldName × Nat)} {args : List Nat} (h : ArgsInRange fs args) :
    (encodeFields fs args).length = (fs.map (·.2)).sum := by
  induction h with
  | nil => rfl
  | cons _ _ ih => simp [encodeFields, ih]

theorem length_encodeBody {args : List Nat} (h : ArgsInRange s.fields args) :
    (encodeBody c p s args).length = c.copSize + s.fieldBits := by
  simp only [encodeBody, List.length_append, length_bitsN, length_encodeFields h, Shape.fieldBits]

/-- R68: the word of in-range arguments has the width of a word. -/
theorem length_encodedWord {args : List Nat} (hwf : c.wf = true) (hs : c.catalog[p]? = some s)
    (h : ArgsInRange s.fields args) : (padWord c (encodeBody c p s args)).length = c.commandSize := by
  obtain ⟨hfit, -, -⟩ := shape_of_wf hwf hs
  exact length_padWord ((length_encodeBody h).trans_le hfit)

/-! ## Encode, then decode (R68) -/

theorem opcode_encodedWord {args : List Nat} (hp : p < 2 ^ c.copSize) :
    opcode c (padWord c (encodeBody c p s args)) = p := by
  have h : slice (padWord c (encodeBody c p s args)) 0 c.copSize = bitsN c.copSize p := by
    rw [padWord, encodeBody, List.append_assoc]
    exact slice_append_middle [] _ _ rfl (length_bitsN _ _).symm
  rw [opcode, h, uint_bitsN hp]

/-- The fields cut from encoded arguments hold the arguments, whatever stands before and after them. -/
theorem values_cutFields_encodeFields {fs : List (FieldName × Nat)} {args : List Nat} (h : ArgsInRange fs args)
    (u t : Bits) {off : Nat} (ho : off = u.length) :
    (cutFields (u ++ (encodeFields fs args ++ t)) (fieldSlices off fs)).map (fun e => uint e.2) = args := by
  induction h generalizing u off with
  | nil => rfl
  | @cons f a fs args ha _ ih =>
    rw [cutFields_cons, List.map_cons, encodeFields, List.append_assoc,
      slice_append_middle _ _ _ ho (length_bitsN _ _).symm, uint_bitsN ha]
    have tail := ih (u ++ bitsN f.2 a) (off := off + f.2) (by simp [ho])
    rw [List.append_assoc] at tail
    rw [tail]

theorem values_cutFields_encodedWord {args : List Nat} (h : ArgsInRange s.fields args) :
    (cutFields (padWord c (encodeBody c p s args)) (fieldSlices c.copSize s.fields)).map (fun e => uint e.2)
      = args := by
  rw [padWord, encodeBody, List.append_assoc]
  exact values_cutFields_encodeFields h _ _ (length_bitsN _ _).symm

/-! ## Decode, then encode (R68) -/

/-- Encoding the values of the cut fields gives back the digits they were cut from. -/
theorem encodeFields_values_cutFields {off : Nat} {fs : List (FieldName × Nat)}
    (h : off + (fs.map (·.2)).sum ≤ word.length) :
    encodeFields fs ((cutFields word (fieldSlices off fs)).map fun e => uint e.2)
      = slice word off (fs.map (·.2)).sum := by
  induction fs generalizing off with
  | nil => simp [encodeFields, slice]
  | cons f fs ih =>
    simp only [List.map_cons, List.sum_cons] at h ⊢
    rw [cutFields_cons, List.map_cons, encodeFields, bitsN_uint_slice (by omega), ih (by omega),
      slice_append_slice]

/-- The body encoded from a word's own opcode value and field values is the word up to its pad. -/
theorem encodeBody_values_cutFields (h : c.copSize + s.fieldBits ≤ word.length) :
    encodeBody c (opcode c word) s
        ((cutFields word (fieldSlices c.copSize s.fields)).map fun e => uint e.2)
      = word.take (c.copSize + s.fieldBits) := by
  rw [encodeBody, encodeFields_values_cutFields h, bitsN_opcode (by omega), ← slice_zero_eq_take,
    ← slice_zero_eq_take, ← slice_append_slice, Nat.zero_add, Shape.fieldBits]

/-- The leading digits of a word, padded, are those digits and zeros (R65). -/
theorem padWord_take {n : Nat} (hw : word.length = c.commandSize) (hn : n ≤ c.commandSize) :
    padWord c (word.take n) = word.take n ++ zeros (c.commandSize - n) := by
  rw [padWord, List.length_take, hw, Nat.min_eq_left hn]

/-- Settles O5: the encoded word cuts back into its arguments, and a word's own values encode to its digits up to the pad. -/
theorem argumentsRoundTrip : Obligations.ArgumentsRoundTrip := by
  intro c p s hwf hs
  obtain ⟨hfit, -, -⟩ := shape_of_wf hwf hs
  refine ⟨fun args hargs => ?_, fun word k fs hw hd => ?_⟩
  · exact ⟨_, _, encodeWord_of_shape hs args, length_encodedWord hwf hs hargs,
      rawDecode_of_shape hs (opcode_encodedWord (position_lt hwf hs)), names_cutFields _ _ _,
      values_cutFields_encodedWord hargs⟩
  · obtain ⟨rfl, s', hs', -, rfl⟩ := rawDecode_recognised_iff.1 hd
    obtain rfl : s = s' := Option.some.inj (hs.symm.trans hs')
    rw [encodeWord_of_shape hs, encodeBody_values_cutFields (hw ▸ hfit), padWord_take hw hfit]

/-- Settles O4: the rows of the matrix are the shape's fields at their offsets, and the decoded fields are the slices of the
rows. -/
theorem fieldSliceMatrixGivesEveryField : Obligations.FieldSliceMatrixGivesEveryField := by
  intro c p s hwf hs
  obtain ⟨hfit, hkind, -⟩ := shape_of_wf hwf hs
  obtain ⟨hnodup, -, hused, -⟩ := wfKind_iff.1 hkind
  rw [fieldSliceMatrix_of_shape hs]
  refine ⟨fun j n w hj => by rw [getElem?_fieldSlices, hj, Option.map_some], fun word hw ho => ?_⟩
  have hnames := names_cutFields word c.copSize s.fields
  have hdef (n : FieldName) :
      (fieldVector (cutFields word (fieldSlices c.copSize s.fields)) n).isSome = true ↔ n ∈ s.fields.map (·.1) := by
    rw [fieldVector_isSome_iff, hnames]
  refine ⟨_, rawDecode_of_shape hs ho, fun j n off w hj => ?_, hdef, fun n hn => (hdef n).2 (hused n hn)⟩
  have hcut : (cutFields word (fieldSlices c.copSize s.fields))[j]? = some (n, slice word off w) := by
    rw [cutFields, List.getElem?_map, hj, Option.map_some]
  have hend : off + w ≤ word.length := by
    rw [hw]
    exact (slice_end_le_of_mem_fieldSlices (List.mem_of_getElem? hj)).trans hfit
  exact ⟨hcut, fieldVector_of_mem (hnames ▸ hnodup) (List.mem_of_getElem? hcut), hw ▸ slice_eq_bitRange hend⟩

/-! ## `EX8` (R71) -/

theorem ex8_decr_fields (w : Nat) :
    Instr.ofFields (cutFields (bitsN 8 w) (fieldSlices 2 [(.registerAddress, 2)])) .decr
      = some (.decr (w / 16 % 4)) := by
  simp [Instr.ofFields, indexValue, fieldVector, cutFields, fieldSlices, slice_bitsN, uint_bitsN_mod]

theorem ex8_jmp_fields (w : Nat) :
    Instr.ofFields (cutFields (bitsN 8 w) (fieldSlices 2 [(.commandAddress, 3)])) .jmp
      = some (.jmp (w / 8 % 8)) := by
  simp [Instr.ofFields, indexValue, fieldVector, cutFields, fieldSlices, slice_bitsN, uint_bitsN_mod]

/-- Settles O3: by the opcode value, bits 7:6 of the word. -/
theorem ex8WordsDecodeByBitNumbers : Obligations.Ex8WordsDecodeByBitNumbers := by
  refine ⟨fun w hw => ?_, by decide, by decide, rfl, rfl, rfl, rfl, rfl, rfl⟩
  have hop : opcode ex8Config (bitsN 8 w) = w / 64 := by
    rw [opcode_bitsN (c := ex8Config) (n := 8) (by decide)]
    exact Nat.mod_eq_of_lt (Nat.div_lt_of_lt_mul hw)
  have hlt : w / 64 < 4 := by omega
  generalize hq : w / 64 = q at hop hlt ⊢
  match q, hlt with
  | 0, _ => exact decode_of_shape rfl hop rfl
  | 1, _ => exact decode_of_shape rfl hop (ex8_decr_fields w)
  | 2, _ => exact decode_of_shape rfl hop (ex8_jmp_fields w)
  | 3, _ => exact decode_of_no_shape rfl hop

end Sys2Proof

namespace Sys2Proof.Machine

/-- A chain of two checked computations ends well exactly when both do. -/
theorem bind_eq_ok_iff {ε α β : Type} {x : Except ε α} {f : α → Except ε β} {b : β} :
    x >>= f = .ok b ↔ ∃ a, x = .ok a ∧ f a = .ok b := by
  cases x with
  | error e => exact ⟨fun h => (nomatch h), fun ⟨_, h, _⟩ => (nomatch h)⟩
  | ok a => exact ⟨fun h => ⟨a, rfl, h⟩, fun ⟨_, rfl, h⟩ => h⟩

/-! ## The words of the assembler (R76, R77) -/

/-- Arguments that resolve are in range of their fields. -/
theorem resolveArg_lt {table : LabelTable} {w v : Nat} {arg : Text} (h : resolveArg table w arg = .ok v) :
    v < 2 ^ w := by
  unfold resolveArg at h
  split at h
  · cases h
    assumption
  · cases h

theorem resolveArgs_inRange {table : LabelTable} {fs : List (FieldName × Nat)} {args : List Text} {vs : List Nat}
    (h : resolveArgs table fs args = .ok vs) : ArgsInRange fs vs := by
  induction fs generalizing args vs with
  | nil =>
    cases args with
    | nil =>
      cases h
      exact .nil
    | cons a as => cases h
  | cons f fs ih =>
    cases args with
    | nil => cases h
    | cons a as =>
      obtain ⟨v, hv, h⟩ := bind_eq_ok_iff.1 h
      obtain ⟨ws, hws, h⟩ := bind_eq_ok_iff.1 h
      cases h
      exact .cons (resolveArg_lt hv) (ih hws)

/-- A line that encodes: it parses, its mnemonic is found, its arguments resolve, and the word is their encoding. -/
theorem encodeLine_ok {c : Config} {table : LabelTable} {line : Text} {word : Bits}
    (h : encodeLine c table line = .ok word) :
    ∃ pl p s vs, parseLine line = some pl ∧ findMnemonic pl.mnemonic c.catalog = some p ∧ c.catalog[p]? = some s
      ∧ resolveArgs table s.fields pl.args = .ok vs ∧ word = padWord c (encodeBody c p s vs) := by
  unfold encodeLine at h
  split at h
  · cases h
  · rename_i pl hpl
    split at h
    · cases h
    · rename_i p hp
      split at h
      · cases h
      · rename_i s hs
        split at h
        · cases h
        · obtain ⟨vs, hvs, h⟩ := bind_eq_ok_iff.1 h
          cases h
          exact ⟨pl, p, s, vs, hpl, hp, hs, hvs, rfl⟩

theorem length_of_encodeLine {c : Config} {table : LabelTable} {line : Text} {word : Bits} (hwf : c.wf = true)
    (h : encodeLine c table line = .ok word) : word.length = c.commandSize := by
  obtain ⟨pl, p, s, vs, -, -, hs, hvs, rfl⟩ := encodeLine_ok h
  exact length_encodedWord hwf hs (resolveArgs_inRange hvs)

/-- R76: the words are those of the lines, in order. -/
theorem encodeLines_ok {c : Config} {table : LabelTable} {lines : List Text} {words : List Bits}
    (h : encodeLines c table lines = .ok words) :
    lines.map (encodeLine c table) = words.map .ok := by
  induction lines generalizing words with
  | nil =>
    cases h
    rfl
  | cons line rest ih =>
    obtain ⟨w, hw, h⟩ := bind_eq_ok_iff.1 h
    obtain ⟨ws, hws, h⟩ := bind_eq_ok_iff.1 h
    cases h
    rw [List.map_cons, List.map_cons, hw, ih hws]

/-- The two passes of a source that assembles (R75, R76). -/
theorem assemble_ok {c : Config} {start : Nat} {lines : List Text} {words : List Bits}
    (h : assemble c start lines = .ok words) :
    ∃ table, collectLabels start lines [] = .ok table ∧ encodeLines c table lines = .ok words :=
  bind_eq_ok_iff.1 h

theorem length_of_mem_assemble {c : Config} {start : Nat} {lines : List Text} {words : List Bits} (hwf : c.wf = true)
    (h : assemble c start lines = .ok words) : ∀ v ∈ words, v.length = c.commandSize := by
  obtain ⟨table, -, h⟩ := assemble_ok h
  intro v hv
  have hok : Except.ok v ∈ lines.map (encodeLine c table) := encodeLines_ok h ▸ List.mem_map_of_mem hv
  obtain ⟨line, -, hline⟩ := List.mem_map.1 hok
  exact length_of_encodeLine hwf hline

/-! ## Loading (R78, R127) -/

theorem hostLoadProg_capacity {words : List Bits} {s : State} (h : s.cfg.numSlots - s.cursor < words.length) :
    hostLoadProg words s = .failed .capacity s := if_pos h

/-- R127: `load_prog` of words that fit and all have the word width: they stand from the cursor on, which advances past
them, and nothing else changes. -/
theorem hostLoadProg_fit {words : List Bits} {s : State} (hn : words.length ≤ s.cfg.numSlots - s.cursor)
    (hw : ∀ v ∈ words, v.length = s.cfg.commandSize) :
    ∃ t, hostLoadProg words s = .done t
      ∧ (∀ k w, words[k]? = some w → t.slot (s.cursor + k) = w)
      ∧ (∀ a, (a < s.cursor ∨ s.cursor + words.length ≤ a) → t.slot a = s.slot a)
      ∧ t = { s with commands := t.commands, cursor := s.cursor + words.length } := by
  obtain ⟨m, hload, hwritten, hframe, -⟩ :=
    loadWords_fit (n := s.cfg.numSlots) (base := s.cursor) (k := 0) (m := s.commands) words hw
  refine ⟨{ s with commands := m, cursor := s.cursor + words.length }, ?_, hwritten, hframe, rfl⟩
  rw [hostLoadProg, if_neg (by omega), hload]

theorem hostAssemble_ok {lines : List Text} {words : List Bits} {s : State}
    (h : assemble s.cfg s.cursor lines = .ok words) : hostAssemble lines s = hostLoadProg words s := by
  simp only [hostAssemble, h]

theorem hostAssemble_error {lines : List Text} {e : AsmError} {s : State}
    (h : assemble s.cfg s.cursor lines = .error e) : hostAssemble lines s = .failed (.assembler e) s := by
  simp only [hostAssemble, h]

/-- Settles O59: assembled words have the word width, so `load_prog` of them can fail only for capacity. -/
theorem assembleLoadsTheWords : Obligations.AssembleLoadsTheWords := by
  intro lines s hs
  rw [hostOp_idle hs, hostIdle]
  refine ⟨fun e he => hostAssemble_error he, fun words hwords => ?_⟩
  rw [hostAssemble_ok hwords, hostOp_idle hs, hostIdle]
  exact ⟨rfl, hostLoadProg_capacity, fun hwf hn => hostLoadProg_fit hn (length_of_mem_assemble hwf hwords)⟩

end Sys2Proof.Machine
end

section
/-! The execution-cycle family (spec/40_execution_cycle.md): the opcode values of table words, the step of a running machine on
an unrecognised word, and how every instruction ends. -/

namespace Sys2Proof

/-! ## The words of the opcode table -/

/-- R70: the opcode value of a `REF` word is its bits 15:12. -/
theorem opcode_refWord {w : Nat} (h : w < 65536) : opcode refConfig (bitsN 16 w) = w / 4096 := by
  rw [opcode_bitsN (c := refConfig) (n := 16) (by decide)]
  exact Nat.mod_eq_of_lt (Nat.div_lt_of_lt_mul h)

/-- R71: the opcode value of an `EX8` word is its bits 7:6. -/
theorem opcode_ex8Word {w : Nat} (h : w < 256) : opcode ex8Config (bitsN 8 w) = w / 64 := by
  rw [opcode_bitsN (c := ex8Config) (n := 8) (by decide)]
  exact Nat.mod_eq_of_lt (Nat.div_lt_of_lt_mul h)

theorem decodeTableWord_of_decode {c : Config} {nbits w p : Nat} {i : Instr} (hc : tableConfig nbits = some c)
    (hd : decode c (bitsN nbits w) = .recognised p i) : decodeTableWord nbits w = some i := by
  simp only [decodeTableWord, hc, hd]

end Sys2Proof

namespace Sys2Proof.Machine

variable {s t : State} {n : Nat} {i : Instr}

/-! ## The step of a running machine -/

theorem step_of_running (hwf : s.cfg.wf = true) (hs : s.status = .running) : step s = runStep s := by
  simp only [step, hwf, hs, if_true]

/-- R90: the fetched word is ignored. -/
theorem runStep_of_unrecognised {op : Nat} (hp : s.pc < s.cfg.numSlots)
    (hd : decode s.cfg (fetch s) = .unrecognised op) : runStep s = .next s.advance := by
  simp only [runStep, if_neg hp.ne, if_neg hp.asymm, hd, execUnrecognised]

/-! ## How an instruction ends (R86, R87, R113) -/

/-- R98: the guard of JMPC as a comparison of numbers. -/
theorem guardTaken_iff {v : Bits} : guardTaken v = true ↔ 1 < uint v := decide_eq_true_iff

/-- R86: the instruction pointer that an instruction leaves where it does not fault. -/
def successor (s : State) : Instr → Nat
  | .jmpc a => if guardTaken (s.reg 0) then a else s.pc + 1
  | .jmp a => a
  | .ret => uint s.ra
  | _ => s.pc + 1

theorem successor_jmpc_taken {a : Nat} (h : 1 < uint (s.reg 0)) : successor s (.jmpc a) = a :=
  if_pos (guardTaken_iff.2 h)

theorem successor_jmpc_untaken {a : Nat} (h : uint (s.reg 0) ≤ 1) : successor s (.jmpc a) = s.pc + 1 :=
  if_neg (mt guardTaken_iff.1 h.not_gt)

theorem successor_of_no_transfer (hjmpc : ∀ a, i ≠ .jmpc a) (hjmp : ∀ a, i ≠ .jmp a) (hret : i ≠ .ret) :
    successor s i = s.pc + 1 := by
  unfold successor
  split
  case h_1 a => exact absurd rfl (hjmpc a)
  case h_2 a => exact absurd rfl (hjmp a)
  case h_3 => exact absurd rfl hret
  case h_4 => rfl

/-- An instruction begun in `s` ends in `t`: with its writes to data memory, registers, stack and `ra` and the pointer at `n`,
nothing else changed, or with a fault raised and no write. -/
inductive EndsAt (s : State) (n : Nat) : State → Prop
  | done {t : State}
      (h : t = { s with memory := t.memory, registers := t.registers, stack := t.stack, ra := t.ra, pc := n }) :
      EndsAt s n t
  | faulted (f : Fault) : EndsAt s n (s.raise f)

/-- A check before the rest of an instruction only adds a fault. -/
theorem EndsAt.checked {P : Prop} [Decidable P] {f : Fault} (h : EndsAt s n t) :
    EndsAt s n (if P then t else s.raise f) := by
  split
  · exact h
  · exact .faulted f

/-- R86, R87, R113: every instruction answers a next state, and ends there at its successor or in a fault. -/
theorem exec_endsAt (i : Instr) (s : State) : ∃ t, exec i s = .next t ∧ EndsAt s (successor s i) t := by
  cases i with
  | nop | jmp _ | ldra _ | ret | pushra => exact ⟨_, rfl, .done rfl⟩
  | jmpc a =>
    refine ⟨_, rfl, .done ?_⟩
    unfold successor
    split <;> rfl
  | stl a v => exact ⟨_, execStl_eq a v s, .checked (.done rfl)⟩
  | ld a r => exact ⟨_, execLd_eq a r s, .checked (.checked (.done rfl))⟩
  | st a r => exact ⟨_, execSt_eq a r s, .checked (.checked (.done rfl))⟩
  | mul a b d => exact ⟨_, execMul_eq a b d s, .checked (.checked (.checked (.done rfl)))⟩
  | decr r => exact ⟨_, execDecr_eq r s, .checked (.done rfl)⟩
  | mov a d => exact ⟨_, execMov_eq a d s, .checked (.checked (.done rfl))⟩
  | push r => exact ⟨_, execPush_eq r s, .checked (.done rfl)⟩
  | pop r =>
    refine ⟨_, execPop_eq r s, .checked ?_⟩
    split
    · exact .done rfl
    · exact .faulted _
  | popra =>
    refine ⟨_, execPopra_eq s, ?_⟩
    split
    · exact .done rfl
    · exact .faulted _

theorem endsAt_of_exec (h : exec i s = .next t) : EndsAt s (successor s i) t := by
  obtain ⟨u, hu, hend⟩ := exec_endsAt i s
  cases h.symm.trans hu
  exact hend

/-! ## The statements -/

/-- Settles O14: no catalog entry stands at the opcode value, so the decoder answers `unrecognised`; the two ranges are read
off the opcode bits. -/
theorem unrecognisedWordOnlyAdvances : Obligations.UnrecognisedWordOnlyAdvances := by
  refine ⟨fun s hwf hs hp hop => ?_, fun w hw => ?_, fun w hw => ?_⟩
  · have hd : decode s.cfg (fetch s) = .unrecognised (opcode s.cfg (fetch s)) :=
      decode_of_no_shape (List.getElem?_eq_none hop) rfl
    exact (step_of_running hwf hs).trans (runStep_of_unrecognised hp hd)
  · rw [opcode_refWord hw, show refConfig.catalog.length = 15 from rfl]
    omega
  · rw [opcode_ex8Word hw, show ex8Config.catalog.length = 3 from rfl]
    omega

/-- Settles O17: NOP is the first entry of both catalogs. -/
theorem nopOnlyAdvances : Obligations.NopOnlyAdvances :=
  ⟨fun _ => rfl,
    fun _ hw h0 => decodeTableWord_of_decode (c := refConfig) rfl
      (decode_of_shape rfl ((opcode_refWord hw).trans h0) rfl),
    fun _ hw h0 => decodeTableWord_of_decode (c := ex8Config) rfl
      (decode_of_shape rfl ((opcode_ex8Word hw).trans h0) rfl)⟩

/-- Settles O38: by the two ways an instruction ends: at its successor with the status kept, or in a fault with `i` kept. -/
theorem defaultSuccessorIsTheNextSlot : Obligations.DefaultSuccessorIsTheNextSlot := by
  intro i s t hs h
  cases endsAt_of_exec h with
  | done hend =>
    have hstatus : t.status = .running := (congrArg State.status hend).trans hs
    have hpc : t.pc = successor s i := congrArg State.pc hend
    rw [hstatus, hpc]
    refine ⟨fun ⟨f, hf⟩ => (nomatch hf), fun _ => ⟨?_, ?_, ?_, ?_, successor_of_no_transfer⟩, .inl rfl⟩
    · rintro a rfl htaken
      exact successor_jmpc_taken htaken
    · rintro a rfl huntaken
      exact successor_jmpc_untaken huntaken
    · rintro a rfl
      rfl
    · rintro rfl
      rfl
  | faulted f => exact ⟨fun _ => rfl, fun hrun => (nomatch hrun), .inr ⟨f, rfl⟩⟩

end Sys2Proof.Machine
end

section
/-! The memory-transfer family (spec/41_memory_transfer.md): the fields of the STL, LD and ST words of `REF`, and what an
instruction leaves that writes one cell or one register and advances. -/

namespace Sys2Proof

/-! ## The words of `REF` (R70) -/

/-- R70: a `REF` word decodes to the instruction that the fields of the shape at its bits 15:12 make up. -/
theorem decodeTableWord_refWord {w p : Nat} {s : Shape} {i : Instr} (hw : w < 65536) (hp : w / 4096 = p)
    (hs : refConfig.catalog[p]? = some s)
    (hi : Instr.ofFields (cutFields (bitsN 16 w) (fieldSlices 4 s.fields)) s.kind = some i) :
    decodeTableWord 16 w = some i :=
  decodeTableWord_of_decode rfl (decode_of_shape hs ((opcode_refWord hw).trans hp) hi)

/-- STL: the address in bits 11:8, the literal in bits 7:0. -/
theorem ref_stl_fields (w : Nat) :
    Instr.ofFields (cutFields (bitsN 16 w) (fieldSlices 4 [(.memoryAddress, 4), (.literal, 8)])) .stl
      = some (.stl (w / 256 % 16) (bitsN 8 (w % 256))) := by
  have hlit : bitsN 8 (w % 256) = bitsN 8 w := bitsN_mod 8 w
  simp [Instr.ofFields, indexValue, fieldVector, cutFields, fieldSlices, slice_bitsN, uint_bitsN_mod, hlit]

/-- LD and ST cut alike: the address in bits 11:8, the register in bits 7:6. -/
theorem indexValue_ref_ld_st (w : Nat) (n : FieldName) :
    indexValue (cutFields (bitsN 16 w) (fieldSlices 4 [(.memoryAddress, 4), (.registerAddress, 2)])) n
      = if n = .memoryAddress then some (w / 256 % 16) else if n = .registerAddress then some (w / 64 % 4) else none := by
  cases n <;> simp [indexValue, fieldVector, cutFields, fieldSlices, slice_bitsN, uint_bitsN_mod]

end Sys2Proof

namespace Sys2Proof.Machine

variable (s : State)

/-! ## One cell or one register written -/

/-- R87: what an instruction leaves that writes `v` into cell `a` and advances. -/
theorem setCell_advance_effect (a : Nat) (v : Bits) :
    (s.setCell a v).advance.cell a = v ∧ (∀ b, b ≠ a → (s.setCell a v).advance.cell b = s.cell b)
      ∧ (s.setCell a v).advance = { s with memory := (s.setCell a v).advance.memory, pc := s.pc + 1 } :=
  ⟨cell_setCell_same s a v, fun _ hb => cell_setCell_other (s := s) hb, rfl⟩

/-- R87: what an instruction leaves that writes `v` into register `r` of the file and advances. -/
theorem setReg_advance_effect {r : Nat} (v : Bits) (hr : r < s.registers.length) :
    (s.setReg r v).advance.reg r = v ∧ (∀ k, k ≠ r → (s.setReg r v).advance.reg k = s.reg k)
      ∧ (s.setReg r v).advance = { s with registers := (s.setReg r v).advance.registers, pc := s.pc + 1 } :=
  ⟨reg_setReg_same hr, fun _ hk => reg_setReg_other (s := s) hk, rfl⟩

/-! ## The statements -/

/-- Settles O18: the one check decides between the written cell and the fault. -/
theorem stlStoresTheLiteral : Obligations.StlStoresTheLiteral := by
  refine ⟨fun a v s => ⟨fun ha => ?_, fun ha => ?_⟩, fun w hw h1 => ?_⟩
  · exact ⟨_, (execStl_eq a v s).trans (by rw [if_pos ha]), setCell_advance_effect s a v⟩
  · exact (execStl_eq a v s).trans (by rw [if_neg ha.not_gt]; rfl)
  · exact decodeTableWord_refWord hw h1 rfl (ref_stl_fields w)

/-- Settles O19: the memory index is checked, then the register index; past both the register holds the cell. -/
theorem ldCopiesTheCell : Obligations.LdCopiesTheCell := by
  refine ⟨fun a r s => ⟨fun ha hr hlen => ?_, fun ha => ?_, fun ha hr => ?_⟩, fun w hw h2 => ?_⟩
  · exact ⟨_, (execLd_eq a r s).trans (by rw [if_pos ha, if_pos hr]), setReg_advance_effect s _ (hr.trans_eq hlen.symm)⟩
  · exact (execLd_eq a r s).trans (by rw [if_neg ha.not_gt]; rfl)
  · exact (execLd_eq a r s).trans (by rw [if_pos ha, if_neg hr.not_gt]; rfl)
  · exact decodeTableWord_refWord hw h2 rfl (by simp [Instr.ofFields, indexValue_ref_ld_st])

/-- Settles O20: the register index is checked, then the memory index; past both the cell holds the register. -/
theorem stCopiesTheRegister : Obligations.StCopiesTheRegister := by
  refine ⟨fun a r s => ⟨fun ha hr => ?_, fun hr => ?_, fun hr ha => ?_⟩, fun w hw h5 => ?_⟩
  · exact ⟨_, (execSt_eq a r s).trans (by rw [if_pos hr, if_pos ha]), setCell_advance_effect s a _⟩
  · exact (execSt_eq a r s).trans (by rw [if_neg hr.not_gt]; rfl)
  · exact (execSt_eq a r s).trans (by rw [if_pos hr, if_neg ha.not_gt]; rfl)
  · exact decodeTableWord_refWord hw h5 rfl (by simp [Instr.ofFields, indexValue_ref_ld_st])

end Sys2Proof.Machine
end

section
/-! The register-operation family (spec/42_register_ops.md): the value DECR writes, and the register fields of the DECR and MOV
words of `REF` and `EX8`. -/

namespace Sys2Proof

/-! ## The vector of ones (R16) -/

/-- R16: all digits one is the largest value of the width. -/
theorem uint_replicate_true (n : Nat) : uint (List.replicate n true) = 2 ^ n - 1 := by
  induction n with
  | zero => rfl
  | succ n ih =>
    simp only [List.replicate_succ, uint, List.length_replicate, ih, Bool.toNat_true, pow_succ]
    omega

/-! ## The fields of table words (R70, R71) -/

/-- R71: an `EX8` word decodes to the instruction that the fields of the shape at its bits 7:6 make up. -/
theorem decodeTableWord_ex8Word {w p : Nat} {s : Shape} {i : Instr} (hw : w < 256) (hp : w / 64 = p)
    (hs : ex8Config.catalog[p]? = some s)
    (hi : Instr.ofFields (cutFields (bitsN 8 w) (fieldSlices 2 s.fields)) s.kind = some i) :
    decodeTableWord 8 w = some i :=
  decodeTableWord_of_decode rfl (decode_of_shape hs ((opcode_ex8Word hw).trans hp) hi)

/-- DECR, PUSH and POP in `REF` cut alike: the register in bits 11:10. -/
theorem indexValue_ref_register (w : Nat) :
    indexValue (cutFields (bitsN 16 w) (fieldSlices 4 [(.registerAddress, 2)])) .registerAddress
      = some (w / 1024 % 4) := by
  simp [indexValue, fieldVector, cutFields, fieldSlices, slice_bitsN, uint_bitsN_mod]

/-- MOV: the source in bits 11:10, the destination in bits 9:8. -/
theorem ref_mov_fields (w : Nat) :
    Instr.ofFields (cutFields (bitsN 16 w) (fieldSlices 4 [(.firstRegister, 2), (.secondRegister, 2)])) .mov
      = some (.mov (w / 1024 % 4) (w / 256 % 4)) := by
  simp [Instr.ofFields, indexValue, fieldVector, cutFields, fieldSlices, slice_bitsN, uint_bitsN_mod]

end Sys2Proof

namespace Sys2Proof.Machine

/-! ## The value DECR writes (R95) -/

theorem length_decrement (L : Nat) (v : Bits) : (decrement L v).length = L := length_bitsN _ _

theorem uint_decrement (L : Nat) (v : Bits) : uint (decrement L v) = (uint v + 2 ^ L - 1) % 2 ^ L :=
  uint_bitsN (Nat.mod_lt _ (Nat.two_pow_pos L))

/-- R95: zero wraps to all ones. -/
theorem decrement_of_uint_eq_zero {v : Bits} (L : Nat) (h : uint v = 0) : decrement L v = List.replicate L true := by
  have hlt : 2 ^ L - 1 < 2 ^ L := Nat.sub_one_lt (Nat.two_pow_pos L).ne'
  apply uint_inj
  · rw [length_decrement, List.length_replicate]
  · rw [uint_decrement, uint_replicate_true, h, Nat.zero_add, Nat.mod_eq_of_lt hlt]

/-! ## The statements -/

/-- Settles O22: the one check decides between the decremented register and the fault. -/
theorem decrSubtractsOne : Obligations.DecrSubtractsOne := by
  refine ⟨fun r s => ⟨fun hr hlen => ?_, fun hr => ?_⟩, fun w hw h6 => ?_, fun w hw h1 => ?_⟩
  · obtain ⟨hwritten, hframe⟩ :=
      setReg_advance_effect s (decrement s.cfg.literalSize (s.reg r)) (hr.trans_eq hlen.symm)
    refine ⟨_, (execDecr_eq r s).trans (by rw [if_pos hr]), ?_, ?_, fun hzero => ?_, hframe⟩
    · rw [hwritten, uint_decrement]
    · rw [hwritten, length_decrement]
    · rw [hwritten, decrement_of_uint_eq_zero _ hzero]
  · exact (execDecr_eq r s).trans (by rw [if_neg hr.not_gt]; rfl)
  · exact decodeTableWord_refWord hw h6 rfl (by simp [Instr.ofFields, indexValue_ref_register])
  · exact decodeTableWord_ex8Word hw h1 rfl (ex8_decr_fields w)

/-- Settles O23: the source index is checked, then the destination index; past both the destination holds the source. -/
theorem movCopiesTheRegister : Obligations.MovCopiesTheRegister := by
  refine ⟨fun a d s => ⟨fun ha hd hlen => ?_, fun ha => ?_, fun ha hd => ?_⟩, fun w hw h14 => ?_⟩
  · exact ⟨_, (execMov_eq a d s).trans (by rw [if_pos ha, if_pos hd]), setReg_advance_effect s _ (hd.trans_eq hlen.symm)⟩
  · exact (execMov_eq a d s).trans (by rw [if_neg ha.not_gt]; rfl)
  · exact (execMov_eq a d s).trans (by rw [if_pos ha, if_neg hd.not_gt]; rfl)
  · exact decodeTableWord_refWord hw h14 rfl (ref_mov_fields w)

end Sys2Proof.Machine
end

section
/-! The control-transfer family (spec/43_control_transfer.md): JMPC on either side of its guard, and the target and literal
fields of the JMPC, JMP and LDRA words of `REF`. -/

namespace Sys2Proof

/-! ## The words of `REF` (R70) -/

/-- JMPC and JMP cut alike: the target in bits 11:8. -/
theorem indexValue_ref_command (w : Nat) :
    indexValue (cutFields (bitsN 16 w) (fieldSlices 4 [(.commandAddress, 4)])) .commandAddress
      = some (w / 256 % 16) := by
  simp [indexValue, fieldVector, cutFields, fieldSlices, slice_bitsN, uint_bitsN_mod]

/-- LDRA: the literal in bits 11:4. -/
theorem ref_ldra_fields (w : Nat) :
    Instr.ofFields (cutFields (bitsN 16 w) (fieldSlices 4 [(.literal, 8)])) .ldra
      = some (.ldra (bitsN 8 (w / 16 % 256))) := by
  have hlit : bitsN 8 (w / 16 % 256) = bitsN 8 (w / 16) := bitsN_mod 8 (w / 16)
  simp [Instr.ofFields, fieldVector, cutFields, fieldSlices, slice_bitsN, hlit]

end Sys2Proof

namespace Sys2Proof.Machine

variable {s : State}

/-! ## The two sides of the guard of JMPC (R98) -/

theorem execJmpc_taken (t : Nat) (h : 1 < uint (s.reg 0)) : execJmpc t s = .next (s.jump t) := by
  rw [execJmpc, if_pos (guardTaken_iff.2 h)]

theorem execJmpc_untaken (t : Nat) (h : uint (s.reg 0) ≤ 1) : execJmpc t s = .next s.advance := by
  rw [execJmpc, if_neg (mt guardTaken_iff.1 h.not_gt)]

/-! ## The statements -/

/-- Settles O24: the guard, read as a comparison of numbers, decides between the jump and the next slot. -/
theorem jmpcJumpsAboveOne : Obligations.JmpcJumpsAboveOne := by
  refine ⟨fun t s => ⟨fun htaken => ?_, fun huntaken => ?_⟩, fun w hw h3 => ?_⟩
  · exact execJmpc_taken t htaken
  · exact execJmpc_untaken t huntaken
  · exact decodeTableWord_refWord hw h3 rfl (by simp [Instr.ofFields, indexValue_ref_command])

/-- Settles O25: JMP is the jump to its field, which is four bits wide in `REF` and three in `EX8`. -/
theorem jmpSetsThePointer : Obligations.JmpSetsThePointer := by
  refine ⟨fun t s => rfl, fun w hw h7 => ?_, fun w hw h2 => ?_⟩
  · exact decodeTableWord_refWord hw h7 rfl (by simp [Instr.ofFields, indexValue_ref_command])
  · exact decodeTableWord_ex8Word hw h2 rfl (ex8_jmp_fields w)

/-- Settles O26: the literal is the field's own digits, so the decoder hands LDRA the vector it writes. -/
theorem ldraLoadsTheLiteral : Obligations.LdraLoadsTheLiteral := by
  refine ⟨fun v s => rfl, fun w hw h10 => ?_⟩
  exact decodeTableWord_refWord hw h10 rfl (ref_ldra_fields w)

/-- Settles O27: RET is the jump to the value of `ra`, and its words have no field. -/
theorem retJumpsToTheReturnAddress : Obligations.RetJumpsToTheReturnAddress := by
  refine ⟨fun s => rfl, fun w hw h11 => ?_⟩
  exact decodeTableWord_refWord hw h11 rfl rfl

end Sys2Proof.Machine
end

section
/-! The stack family (spec/44_stack.md): the four stack instructions on a stack with a top and on an empty one, and which
instructions and host operations leave the stack alone. -/

namespace Sys2Proof.Machine

variable {s t : State} {r : Nat} {v : Bits} {below : List Bits} {i : Instr}

/-! ## A stack with a top and the empty stack (R105, R107, R108) -/

/-- R108: dropping the value just pushed gives the state back. -/
@[simp] theorem dropTop_pushed (s : State) (v : Bits) : (s.pushed v).dropTop = s := by
  simp [State.dropTop, State.pushed]

theorem dropTop_of_stack_eq (h : s.stack = below ++ [v]) : s.dropTop = { s with stack := below } := by
  rw [State.dropTop, h, List.dropLast_concat]

theorem execPop_of_stack_eq (hr : r < s.cfg.numRegs) (h : s.stack = below ++ [v]) :
    execPop r s = .next (({ s with stack := below } : State).setReg r v).advance := by
  rw [execPop_eq, if_pos hr, ← dropTop_of_stack_eq h, h, List.getLast?_concat]

theorem execPop_of_stack_eq_nil (hr : r < s.cfg.numRegs) (h : s.stack = []) :
    execPop r s = .next (s.raise (.emptyStack s.pc)) := by
  rw [execPop_eq, if_pos hr, h, List.getLast?_nil]

theorem execPopra_of_stack_eq (h : s.stack = below ++ [v]) :
    execPopra s = .next (({ s with stack := below } : State).setRa v).advance := by
  rw [execPopra_eq, ← dropTop_of_stack_eq h, h, List.getLast?_concat]

theorem execPopra_of_stack_eq_nil (h : s.stack = []) : execPopra s = .next (s.raise (.emptyStack s.pc)) := by
  rw [execPopra_eq, h, List.getLast?_nil]

/-! ## The instructions whose stack port is idle (R41) -/

/-- R41: the instructions with a busy stack port. -/
theorem stack_instr_of_busy (h : (portsOf i.kind).stack ≠ .idle) :
    (∃ r, i = .push r) ∨ (∃ r, i = .pop r) ∨ i = .pushra ∨ i = .popra := by
  cases i with
  | push r => exact .inl ⟨r, rfl⟩
  | pop r => exact .inr (.inl ⟨r, rfl⟩)
  | pushra => exact .inr (.inr (.inl rfl))
  | popra => exact .inr (.inr (.inr rfl))
  | _ => exact absurd rfl h

/-- A check before the rest of an instruction only adds a fault, which leaves the stack (R113). -/
theorem stack_checked {P : Prop} [Decidable P] {f : Fault} (h : t.stack = s.stack) :
    (if P then t else s.raise f).stack = s.stack := by
  split
  · exact h
  · rfl

theorem exec_of_idle_stack (h : (portsOf i.kind).stack = .idle) (s : State) :
    ∃ t, exec i s = .next t ∧ t.stack = s.stack := by
  cases i with
  | nop | jmp _ | ldra _ | ret => exact ⟨_, rfl, rfl⟩
  | jmpc a =>
    refine ⟨_, rfl, ?_⟩
    split <;> rfl
  | stl a v => exact ⟨_, execStl_eq a v s, stack_checked rfl⟩
  | ld a r => exact ⟨_, execLd_eq a r s, stack_checked (stack_checked rfl)⟩
  | st a r => exact ⟨_, execSt_eq a r s, stack_checked (stack_checked rfl)⟩
  | mul a b d => exact ⟨_, execMul_eq a b d s, stack_checked (stack_checked (stack_checked rfl))⟩
  | decr r => exact ⟨_, execDecr_eq r s, stack_checked rfl⟩
  | mov a d => exact ⟨_, execMov_eq a d s, stack_checked (stack_checked rfl)⟩
  | push _ | pop _ | pushra | popra => cases h

/-- R108: an instruction whose stack port is idle leaves the stack. -/
theorem stack_eq_of_idle (hidle : (portsOf i.kind).stack = .idle) (h : exec i s = .next t) : t.stack = s.stack := by
  obtain ⟨u, hu, hstack⟩ := exec_of_idle_stack hidle s
  cases h.symm.trans hu
  exact hstack

/-! ## The host operations (R129) -/

/-- A host operation answers with the state `t`, done or failed. -/
def HostResult.Leaves (a : HostResult) (t : State) : Prop := a = .done t ∨ ∃ e, a = .failed e t

@[simp] theorem HostResult.done_leaves : (HostResult.done s).Leaves t ↔ s = t := by simp [HostResult.Leaves]

@[simp] theorem HostResult.failed_leaves {e : HostError} : (HostResult.failed e s).Leaves t ↔ s = t := by
  simp [HostResult.Leaves]

@[simp] theorem HostResult.not_refused_leaves {q : HostRefusal} : ¬ (HostResult.refused q).Leaves t := by
  simp [HostResult.Leaves]

theorem hostLoadProg_stack {words : List Bits} (h : (hostLoadProg words s).Leaves t) : t.stack = s.stack := by
  obtain ⟨m, hm | ⟨e, hm⟩⟩ := hostLoadProg_cases words s
  · rw [hm, HostResult.done_leaves] at h
    rw [← h]
  · rw [hm, HostResult.failed_leaves] at h
    rw [← h]

theorem hostAssemble_stack {lines : List Text} (h : (hostAssemble lines s).Leaves t) : t.stack = s.stack := by
  cases hasm : assemble s.cfg s.cursor lines with
  | ok words =>
    rw [hostAssemble_ok hasm] at h
    exact hostLoadProg_stack h
  | error e =>
    rw [hostAssemble_error hasm, HostResult.failed_leaves] at h
    rw [h]

/-- R108, R129: a host operation between runs is a `clear` or an `init`, or leaves the stack. -/
theorem hostIdle_stack {op : HostOp} (h : (hostIdle op s).Leaves t) :
    t.stack = s.stack ∨ op = .clear ∨ ∃ cw lw cs ms rf, op = .init cw lw cs ms rf := by
  cases op with
  | init => exact .inr (.inr ⟨_, _, _, _, _, rfl⟩)
  | clear => exact .inr (.inl rfl)
  | loadProg words => exact .inl (hostLoadProg_stack h)
  | assemble lines => exact .inl (hostAssemble_stack h)
  | clearProg | run | readOut =>
    rw [hostIdle, HostResult.done_leaves] at h
    cases h
    exact .inl rfl

/-- R58: during a run the host has no move, so what holds between runs holds of every host operation. -/
theorem hostIdle_leaves_of_hostOp {op : HostOp} (h : (hostOp op (.ready s)).Leaves t) : (hostIdle op s).Leaves t := by
  by_cases hs : s.status = .running
  · rw [hostOp_running hs] at h
    exact absurd h HostResult.not_refused_leaves
  · rwa [hostOp_idle hs] at h

/-! ## The statements -/

/-- Settles O29: the index is checked, then the stack; past both the register holds the top. -/
theorem popTakesTheTop : Obligations.PopTakesTheTop := by
  refine ⟨fun r s => ⟨fun below v hr hlen hstack => ?_, fun hr => ?_, fun hr hnil => ?_⟩, fun w hw h9 => ?_⟩
  · exact ⟨_, execPop_of_stack_eq hr hstack, setReg_advance_effect { s with stack := below } v (hr.trans_eq hlen.symm)⟩
  · exact (execPop_eq r s).trans (by rw [if_neg hr.not_gt]; rfl)
  · exact execPop_of_stack_eq_nil hr hnil
  · exact decodeTableWord_refWord hw h9 rfl (by simp [Instr.ofFields, indexValue_ref_register])

/-- Settles O46: a pop undoes a push; an instruction that changes the stack has a busy stack port; a host operation between
runs that changes it is one of the two that empty it. -/
theorem stackIsLastInFirstOut : Obligations.StackIsLastInFirstOut := by
  refine ⟨fun s v => ⟨rfl, ?_⟩, fun s hnil => popTop_nil hnil, fun i s t h hne => ?_, fun s => ⟨rfl, rfl⟩, fun c => rfl,
    fun op s t h hne => ?_⟩
  · rw [popTop_concat (State.pushed_stack s v), dropTop_pushed]
  · exact stack_instr_of_busy fun hidle => hne (stack_eq_of_idle hidle h)
  · exact (hostIdle_stack (hostIdle_leaves_of_hostOp h)).resolve_left hne

/-- Settles O28: the one check decides between the appended register and the fault. -/
theorem pushAppendsTheRegister : Obligations.PushAppendsTheRegister := by
  refine ⟨fun r s => ⟨fun hr => ?_, fun hr => ?_⟩, fun w hw h8 => ?_⟩
  · exact (execPush_eq r s).trans (by rw [if_pos hr]; rfl)
  · exact (execPush_eq r s).trans (by rw [if_neg hr.not_gt]; rfl)
  · exact decodeTableWord_refWord hw h8 rfl (by simp [Instr.ofFields, indexValue_ref_register])

/-- Settles O30: PUSHRA makes no check, and its words have no field. -/
theorem pushraAppendsTheReturnAddress : Obligations.PushraAppendsTheReturnAddress := by
  refine ⟨fun s => rfl, fun w hw h12 => ?_⟩
  exact decodeTableWord_refWord hw h12 rfl rfl

/-- Settles O31: the stack alone decides between the popped return address and the fault, and the words have no field. -/
theorem popraLoadsTheTop : Obligations.PopraLoadsTheTop := by
  refine ⟨fun s => ⟨fun below v hstack => ?_, fun hnil => ?_⟩, fun w hw h13 => ?_⟩
  · exact execPopra_of_stack_eq hstack
  · exact execPopra_of_stack_eq_nil hnil
  · exact decodeTableWord_refWord hw h13 rfl rfl

end Sys2Proof.Machine
end

section
/-! The reset family (spec/70_reset_and_hazards.md): `clear_prog`, and the rollback of a `load_prog` that meets a word of
another width. -/

namespace Sys2Proof.Machine

variable {w n base k : Nat} {m : Memory} {words : List Bits} {bad : Bits} {s : State}

/-! ## The rollback (R127) -/

/-- R33, R127: where the memory is canonical and reads zero from the base on, the zeros of the rollback are what stood there
before, so the failing loop gives back the memory itself. -/
theorem loadWords_misfit_restores (hk : words[k]? = some bad) (hbad : bad.length ≠ w)
    (hpre : ∀ v ∈ words.take k, v.length = w) (hm : Memory.wf w n m = true)
    (hzero : ∀ a, base ≤ a → Memory.read w m a = zeros w) (hn : base + words.length ≤ n) :
    loadWords w base 0 words m = (m, false) := by
  obtain ⟨m', hload, hzeroed, hframe, hwf⟩ :=
    loadWords_misfit (n := n) (base := base) (k := 0) (m := m) words k bad hk hbad hpre
  have hread (a : Nat) : Memory.read w m' a = Memory.read w m a := by
    by_cases ha : base ≤ a ∧ a < base + k
    · exact (hzeroed a ha).trans (hzero a ha.1).symm
    · exact hframe a (by omega)
  rw [hload, Memory.ext_read (hwf hm hn) hm hread]

/-- R127: `load_prog` of words that fit, of which the one at position `k` is the first of another width: the slots of the
words before it are zero, and nothing else changes. -/
theorem hostLoadProg_misfit (hn : words.length ≤ s.cfg.numSlots - s.cursor) (hk : words[k]? = some bad)
    (hbad : bad.length ≠ s.cfg.commandSize) (hpre : ∀ v ∈ words.take k, v.length = s.cfg.commandSize) :
    ∃ t, hostLoadProg words s = .failed .widthMismatch t
      ∧ (∀ j, j < k → t.slot (s.cursor + j) = zeros s.cfg.commandSize)
      ∧ (∀ a, (a < s.cursor ∨ s.cursor + k ≤ a) → t.slot a = s.slot a)
      ∧ t = { s with commands := t.commands } := by
  obtain ⟨m, hload, hzeroed, hframe, -⟩ :=
    loadWords_misfit (n := s.cfg.numSlots) (base := s.cursor) (k := 0) (m := s.commands) words k bad hk hbad hpre
  refine ⟨{ s with commands := m }, ?_, fun j hj => hzeroed (s.cursor + j) (by omega), hframe, rfl⟩
  rw [hostLoadProg, if_neg hn.not_gt, hload]

/-- R33, R127: on a state that meets the invariant the failed call leaves the whole state as it was. -/
theorem hostLoadProg_misfit_of_wf (hn : words.length ≤ s.cfg.numSlots - s.cursor) (hk : words[k]? = some bad)
    (hbad : bad.length ≠ s.cfg.commandSize) (hpre : ∀ v ∈ words.take k, v.length = s.cfg.commandSize)
    (hwf : s.wf = true) : hostLoadProg words s = .failed .widthMismatch s := by
  obtain ⟨-, hcommands, -⟩ := (State.wf_iff s).1 hwf
  have hpos : 0 < words.length := List.length_pos_of_mem (List.mem_of_getElem? hk)
  have hload : loadWords s.cfg.commandSize s.cursor 0 words s.commands = (s.commands, false) :=
    loadWords_misfit_restores hk hbad hpre hcommands (fun _ => State.slot_of_cursor_le hwf) (by omega)
  rw [hostLoadProg, if_neg hn.not_gt, hload]

/-! ## The statements -/

/-- Settles O55: the capacity, the success and the misfit of the loading loop, each by its lemma. -/
theorem loadProgAppendsOrRollsBack : Obligations.LoadProgAppendsOrRollsBack := by
  intro words s hs
  rw [hostOp_idle hs, hostIdle]
  refine ⟨hostLoadProg_capacity, hostLoadProg_fit, fun k bad hn hk hbad hpre => ?_⟩
  obtain ⟨t, ht, hzeroed, hframe, hrest⟩ := hostLoadProg_misfit hn hk hbad hpre
  refine ⟨t, ht, hzeroed, hframe, hrest, fun hwf => ?_⟩
  cases ht.symm.trans (hostLoadProg_misfit_of_wf hn hk hbad hpre hwf)
  rfl

/-- Settles O54: program memory lists nothing, and an element that is not listed reads as zeros. -/
theorem clearProgZeroesProgramMemory : Obligations.ClearProgZeroesProgramMemory := by
  intro s hs
  exact ⟨hostClearProg s, hostOp_idle hs, fun _ => Memory.read_nil, rfl, rfl⟩

end Sys2Proof.Machine
end

section
/-! The decoder on instructions (spec/30_encoding.md): a decoded instruction is well formed, an expressible one decodes from its
own word, no word under a well-formed configuration lacks a meaning, and the digits past the fields are not read. -/

namespace Sys2Proof

variable {c : Config} {word u v : Bits} {p : Nat} {s : Shape} {i : Instr}

/-! ## Fields and their values -/

/-- No name occurs twice in a shape, so a name has one width. -/
theorem width_unique (hkind : s.wfKind = true) {n : FieldName} {w w' : Nat} (h : (n, w) ∈ s.fields)
    (h' : (n, w') ∈ s.fields) : w = w' := by
  obtain ⟨hnodup, -⟩ := wfKind_iff.1 hkind
  exact congrArg Prod.snd (List.inj_on_of_nodup_map hnodup h h' rfl)

/-- The names of the fields cut by a shape are those of its kind (R9). -/
theorem name_mem_of_cut (hkind : s.wfKind = true) {off : Nat} {e : FieldName × Bits}
    (he : e ∈ cutFields word (fieldSlices off s.fields)) : e.1 ∈ s.kind.fieldNames := by
  obtain ⟨-, hnames, -⟩ := wfKind_iff.1 hkind
  exact hnames _ (names_cutFields word off s.fields ▸ List.mem_map_of_mem he)

/-- The vector cut for a field of the kind is found under its name, and its width is the declared one (R63). -/
theorem fieldVector_of_cut (hkind : s.wfKind = true) {off : Nat} (hfit : off + s.fieldBits ≤ word.length)
    {n : FieldName} (hn : n ∈ s.kind.fieldNames) :
    ∃ v w, fieldVector (cutFields word (fieldSlices off s.fields)) n = some v
      ∧ (n, v) ∈ cutFields word (fieldSlices off s.fields) ∧ (n, w) ∈ s.fields ∧ v.length = w := by
  obtain ⟨-, -, hused, -⟩ := wfKind_iff.1 hkind
  have hdef := (fieldVector_isSome_iff (cutFields word (fieldSlices off s.fields)) n).2
    (names_cutFields word off s.fields ▸ hused n hn)
  obtain ⟨v, hv⟩ := Option.isSome_iff_exists.1 hdef
  have hmem := mem_of_fieldVector hv
  obtain ⟨w, hw, hlen⟩ := length_of_mem_cutFields hfit hmem
  exact ⟨v, w, hv, hmem, hw, hlen⟩

/-! ## The instruction put together -/

/-- R64: what an instruction holds for a field of its kind, and that the field can hold it, as propositions. -/
theorem fieldFits_iff {f : FieldName × Nat} : i.fieldFits f = true ↔
    (f.1 = .literal ∧ ∃ v, i.literalField = some v ∧ v.length = f.2)
      ∨ (f.1 ≠ .literal ∧ ∃ k, i.indexField f.1 = some k ∧ k < 2 ^ f.2) := by
  obtain ⟨n, w⟩ := f
  by_cases hn : n = .literal
  · subst hn
    cases hl : i.literalField <;> simp [Instr.fieldFits, hl]
  · have hindex : i.fieldFits (n, w) = (i.indexField n).any (fun k => k < 2 ^ w) := by
      cases n with
      | literal => exact absurd rfl hn
      | _ => simp only [Instr.fieldFits]; cases i.indexField _ <;> rfl
    simp [hindex, hn, Option.any_eq_true]

/-- The argument of a field the instruction holds is in the field's range (R67). -/
theorem arg_lt_of_fieldFits {f : FieldName × Nat} (h : i.fieldFits f = true) : i.arg f.1 < 2 ^ f.2 := by
  rcases fieldFits_iff.1 h with ⟨hl, v, hv, hlen⟩ | ⟨hn, k, hk, hlt⟩
  · simpa [Instr.arg, hl, hv, ← hlen] using uint_lt v
  · have : i.arg f.1 = k := by simp [Instr.arg, hk]
    omega

/-- An instruction is expressible at a position exactly if the shape there has its kind and room for its fields (R67). -/
theorem instrWf_iff : i.wf c p = true ↔
    ∃ s, c.catalog[p]? = some s ∧ s.kind = i.kind ∧ ∀ f ∈ s.fields, i.fieldFits f = true := by
  unfold Instr.wf
  cases c.catalog[p]? <;> simp

/-- R69: fields that hold the instruction's own values make it up again, whatever its kind. -/
theorem rebuild (i : Instr) : Laws.Rebuild.Statement i := by
  cases i with
  | nop => exact Laws.Rebuild.nop
  | stl a v => exact Laws.Rebuild.stl a v
  | ld a r => exact Laws.Rebuild.ld a r
  | jmpc t => exact Laws.Rebuild.jmpc t
  | mul a b d => exact Laws.Rebuild.mul a b d
  | st a r => exact Laws.Rebuild.st a r
  | decr r => exact Laws.Rebuild.decr r
  | jmp t => exact Laws.Rebuild.jmp t
  | push r => exact Laws.Rebuild.push r
  | pop r => exact Laws.Rebuild.pop r
  | ldra v => exact Laws.Rebuild.ldra v
  | ret => exact Laws.Rebuild.ret
  | pushra => exact Laws.Rebuild.pushra
  | popra => exact Laws.Rebuild.popra
  | mov a b => exact Laws.Rebuild.mov a b

/-! ## Decoding (R66) -/

/-- R69: fields with every name the kind uses make up an instruction. -/
theorem exists_ofFields {fs : List (FieldName × Bits)} {k : Kind}
    (h : ∀ f ∈ k.fieldNames, ∃ v, fieldVector fs f = some v) : ∃ i, Instr.ofFields fs k = some i := by
  cases k with
  | nop | ret | pushra | popra => exact ⟨_, rfl⟩
  | jmpc | decr | jmp | push | pop | ldra =>
    obtain ⟨a, ha⟩ := h _ List.mem_cons_self
    simp [Instr.ofFields, indexValue, ha]
  | stl | ld | st | mov =>
    obtain ⟨a, ha⟩ := h _ List.mem_cons_self
    obtain ⟨b, hb⟩ := h _ (List.mem_cons_of_mem _ List.mem_cons_self)
    simp [Instr.ofFields, indexValue, ha, hb]
  | mul =>
    obtain ⟨a, ha⟩ := h _ List.mem_cons_self
    obtain ⟨b, hb⟩ := h _ (List.mem_cons_of_mem _ List.mem_cons_self)
    obtain ⟨d, hd⟩ := h _ (List.mem_cons_of_mem _ (List.mem_cons_of_mem _ List.mem_cons_self))
    simp [Instr.ofFields, indexValue, ha, hb, hd]

/-- R66, R72: under a well-formed configuration every word, of whatever length, is unrecognised or an instruction. -/
theorem decode_cases (hwf : c.wf = true) (word : Bits) :
    (c.catalog.length ≤ opcode c word ∧ decode c word = .unrecognised (opcode c word))
      ∨ (opcode c word < c.catalog.length ∧ ∃ i, decode c word = .recognised (opcode c word) i) := by
  cases hs : c.catalog[opcode c word]? with
  | none => exact .inl ⟨List.getElem?_eq_none_iff.1 hs, decode_of_no_shape hs rfl⟩
  | some s =>
    obtain ⟨-, hkind, -⟩ := shape_of_wf hwf hs
    obtain ⟨-, -, hused, -⟩ := wfKind_iff.1 hkind
    obtain ⟨i, hi⟩ := exists_ofFields (fs := cutFields word (fieldSlices c.copSize s.fields)) fun f hf =>
      Option.isSome_iff_exists.1 ((fieldVector_isSome_iff _ f).2 (names_cutFields word _ s.fields ▸ hused f hf))
    exact .inr ⟨(List.getElem?_eq_some_iff.1 hs).1, i, decode_of_shape hs rfl hi⟩

/-- A decoded instruction holds, for every field cut for it, the value of the vector cut (R64). -/
theorem arg_of_ofFields (hkind : s.wfKind = true) {off : Nat}
    (hi : Instr.ofFields (cutFields word (fieldSlices off s.fields)) s.kind = some i)
    {e : FieldName × Bits} (he : e ∈ cutFields word (fieldSlices off s.fields)) : i.arg e.1 = uint e.2 := by
  obtain ⟨n, v⟩ := e
  obtain ⟨hnodup, -⟩ := wfKind_iff.1 hkind
  obtain ⟨-, hindex, hlit⟩ := ofFields_some hi
  have hn := name_mem_of_cut hkind he
  have hv := fieldVector_of_mem (names_cutFields word off s.fields ▸ hnodup) he
  by_cases hl : n = .literal
  · subst hl
    obtain ⟨v', hv', hi'⟩ := hlit hn
    cases hv.symm.trans hv'
    simp [Instr.arg, hi']
  · obtain ⟨v', hv', hi'⟩ := hindex n hn hl
    cases hv.symm.trans hv'
    simp [Instr.arg, hi']

/-- R64, R67: an instruction decoded from a word of the right width is one the catalog entry can express. -/
theorem instrWf_of_decode (hwf : c.wf = true) (hw : word.length = c.commandSize)
    (h : decode c word = .recognised p i) : i.wf c p = true := by
  obtain ⟨-, s, hs, hi⟩ := decode_recognised h
  obtain ⟨hfit, hkind, -⟩ := shape_of_wf hwf hs
  obtain ⟨-, hnames, -⟩ := wfKind_iff.1 hkind
  obtain ⟨hk, hindex, hlit⟩ := ofFields_some hi
  refine instrWf_iff.2 ⟨s, hs, hk.symm, fun f hf => fieldFits_iff.2 ?_⟩
  have hn : f.1 ∈ s.kind.fieldNames := hnames _ (List.mem_map_of_mem hf)
  obtain ⟨v, w, hv, -, hmem, hlen⟩ := fieldVector_of_cut hkind (hfit.trans_eq hw.symm) hn
  obtain rfl : w = f.2 := width_unique hkind hmem hf
  by_cases hl : f.1 = .literal
  · rw [hl] at hn hv
    obtain ⟨v', hv', hi'⟩ := hlit hn
    cases hv.symm.trans hv'
    exact .inl ⟨hl, v, hi', hlen⟩
  · obtain ⟨v', hv', hi'⟩ := hindex f.1 hn hl
    cases hv.symm.trans hv'
    exact .inr ⟨hl, uint v, hi', hlen ▸ uint_lt v⟩

/-! ## Encoding (R67, R68) -/

/-- R67: the arguments of an instruction for the fields of a shape, in declared order. -/
def Shape.argsOf (s : Shape) (i : Instr) : List Nat := s.fields.map fun f => i.arg f.1

theorem encode_of_shape (hs : c.catalog[p]? = some s) : encode c p i = encodeWord c p (s.argsOf i) := by
  simp only [encode, hs, Shape.argsOf]

theorem argsOf_inRange (h : ∀ f ∈ s.fields, i.fieldFits f = true) : ArgsInRange s.fields (s.argsOf i) :=
  List.forall₂_map_right_iff.2 (List.forall₂_same.2 fun f hf => arg_lt_of_fieldFits (h f hf))

/-- The arguments in the order of the cut fields, whose names are the shape's. -/
theorem argsOf_eq_map_cutFields (word : Bits) (off : Nat) :
    s.argsOf i = (cutFields word (fieldSlices off s.fields)).map fun e => i.arg e.1 := by
  have hargs := congrArg (List.map i.arg) (names_cutFields word off s.fields)
  simpa only [Shape.argsOf, List.map_map, Function.comp_def] using hargs.symm

/-- R63, R64: fields whose values are the arguments of an expressible instruction make up that instruction. -/
theorem ofFields_of_values (hkind : s.wfKind = true) {off : Nat} (hfit : off + s.fieldBits ≤ word.length)
    (hk : s.kind = i.kind) (hfits : ∀ f ∈ s.fields, i.fieldFits f = true)
    (hvals : (cutFields word (fieldSlices off s.fields)).map (fun e => uint e.2) = s.argsOf i) :
    Instr.ofFields (cutFields word (fieldSlices off s.fields)) s.kind = some i := by
  rw [argsOf_eq_map_cutFields word off] at hvals
  have hval := List.map_inj_left.1 hvals
  have held {n : FieldName} (hn : n ∈ i.kind.fieldNames) := fieldVector_of_cut hkind hfit (hk ▸ hn)
  rw [hk]
  refine rebuild i _ (fun n hn hl => ?_) fun hn => ?_
  · obtain ⟨v, w, hv, hmem, hw, -⟩ := held hn
    rcases fieldFits_iff.1 (hfits _ hw) with ⟨h, -⟩ | ⟨-, k, hik, -⟩
    · exact absurd h hl
    · have : uint v = k := by simpa [Instr.arg, hik] using hval _ hmem
      rw [indexValue, hv, hik, Option.map_some, this]
  · obtain ⟨v, w, hv, hmem, hw, hlen⟩ := held hn
    rcases fieldFits_iff.1 (hfits _ hw) with ⟨-, v', hv', hlen'⟩ | ⟨h, -⟩
    · have : uint v = uint v' := by simpa [Instr.arg, hv'] using hval _ hmem
      rw [hv, hv', uint_inj (hlen.trans hlen'.symm) this]
    · exact absurd rfl h

/-- R11: the opcode field fits in a word. -/
theorem copSize_le (h : c.wf = true) : c.copSize ≤ c.commandSize := by
  simp only [Config.wf, Config.wfRanges, Bool.and_eq_true, decide_eq_true_eq] at h
  exact h.1.2.2

/-! ## The pad and the zero word (R65, R73) -/

theorem slice_of_take_eq {n off len : Nat} (h : u.take n = v.take n) (hn : off + len ≤ n) :
    slice u off len = slice v off len := by
  have hslice (x : Bits) : slice x off len = slice (x.take n) off len := by
    simp only [slice, List.drop_take, List.take_take, Nat.min_eq_left (Nat.le_sub_of_add_le' hn)]
  rw [hslice u, hslice v, h]

/-- R65: the fields are cut from the digits up to their end. -/
theorem cutFields_of_take_eq {n off : Nat} {fs : List (FieldName × Nat)} (h : u.take n = v.take n)
    (hn : off + (fs.map (·.2)).sum ≤ n) : cutFields u (fieldSlices off fs) = cutFields v (fieldSlices off fs) := by
  refine List.map_congr_left fun ⟨m, o, w⟩ he => ?_
  rw [slice_of_take_eq h ((slice_end_le_of_mem_fieldSlices he).trans hn)]

theorem opcode_zeros (h : c.copSize ≤ c.commandSize) : opcode c (zeros c.commandSize) = 0 := by
  rw [opcode, slice_zeros (by omega), uint_zeros]

/-- The fields cut from zeros hold zero. -/
theorem uint_of_mem_cutFields_zeros {n off : Nat} {fs : List (FieldName × Nat)}
    (hn : off + (fs.map (·.2)).sum ≤ n) {e : FieldName × Bits} (he : e ∈ cutFields (zeros n) (fieldSlices off fs)) :
    uint e.2 = 0 := by
  obtain ⟨⟨m, o, w⟩, hm, rfl⟩ := List.mem_map.1 he
  rw [slice_zeros ((slice_end_le_of_mem_fieldSlices hm).trans hn), uint_zeros]

/-! ## The statements -/

/-- Settles O6: the encoded word cuts back into the instruction's arguments, and these make the instruction up again. -/
theorem decodeOfEncode : Obligations.DecodeOfEncode := by
  intro c p i hwf hi
  obtain ⟨s, hs, hk, hfits⟩ := instrWf_iff.1 hi
  obtain ⟨hfit, hkind, -⟩ := shape_of_wf hwf hs
  have hargs := argsOf_inRange hfits
  have hlen := length_encodedWord hwf hs hargs
  refine ⟨_, (encode_of_shape hs).trans (encodeWord_of_shape hs _), hlen, ?_⟩
  exact decode_of_shape hs (opcode_encodedWord (position_lt hwf hs))
    (ofFields_of_values hkind (hfit.trans_eq hlen.symm) hk hfits (values_cutFields_encodedWord hargs))

/-- Settles O7: the decoded instruction's arguments are the values of the fields cut, so R68 on arguments applies. -/
theorem encodeOfDecode : Obligations.EncodeOfDecode := by
  intro c word p i hwf hw h
  obtain ⟨hp, s, hs, hi⟩ := decode_recognised h
  obtain ⟨-, hkind, -⟩ := shape_of_wf hwf hs
  have hargs : s.argsOf i = (cutFields word (fieldSlices c.copSize s.fields)).map fun e => uint e.2 := by
    rw [argsOf_eq_map_cutFields word c.copSize]
    exact List.map_congr_left fun e he => arg_of_ofFields hkind hi he
  refine ⟨instrWf_of_decode hwf hw h, s, hs, ?_⟩
  rw [encode_of_shape hs, hargs]
  exact (argumentsRoundTrip c p s hwf hs).2 word _ _ hw (rawDecode_of_shape hs hp.symm)

/-- Settles O8: the opcode and every field are cut from the digits that agree. -/
theorem padBitsAreIgnored : Obligations.PadBitsAreIgnored := by
  intro c u v s _ _ _ hs htake
  have hop : opcode c v = opcode c u := congrArg uint (slice_of_take_eq htake (by omega)).symm
  have hraw : rawDecode c u = rawDecode c v := by
    rw [rawDecode_of_shape hs rfl, rawDecode_of_shape hs hop, cutFields_of_take_eq htake le_rfl]
  rw [decode, decode, hraw]

/-- Settles O9: by the catalog entry at the opcode value, or its absence. -/
theorem everyWordDecodes : Obligations.EveryWordDecodes := by
  intro c word hwf hw
  refine (decode_cases hwf word).imp_right fun ⟨hlt, i, hi⟩ => ?_
  exact ⟨hlt, i, hi, instrWf_of_decode hwf hw hi⟩

/-- Settles O10: the opcode value of zeros is 0, and so is the value of every field cut from them. -/
theorem zeroWordIsTheFirstEntry : Obligations.ZeroWordIsTheFirstEntry := by
  intro c hwf
  have hop : opcode c (zeros c.commandSize) = 0 := opcode_zeros (copSize_le hwf)
  refine ⟨fun hempty => ?_, fun s hs => ?_⟩
  · simp [rawDecode, hop, hempty]
  · obtain ⟨hfit, -, -⟩ := shape_of_wf hwf hs
    exact ⟨_, rawDecode_of_shape hs hop, names_cutFields _ _ _, fun _ => uint_of_mem_cutFields_zeros hfit⟩

end Sys2Proof
end

section
/-! The normal form of an instruction (spec/40_execution_cycle.md R87, R113, R114): its checks in order, and, where none fails,
its writes, each a function of what the instruction reads. `exec_eq` ties it to `exec`; the statements on frames, ports, faults
and the invariant rest on it. -/

namespace Sys2Proof.Machine

variable {s t : State} {i : Instr} {f : Fault}

/-! ## Reads of states that are alike in part -/

theorem State.cell_congr (hm : t.memory = s.memory) (hc : t.cfg = s.cfg) (a : Nat) : t.cell a = s.cell a := by
  rw [State.cell, State.cell, hm, hc]

theorem State.slot_congr (hm : t.commands = s.commands) (hc : t.cfg = s.cfg) (a : Nat) : t.slot a = s.slot a := by
  rw [State.slot, State.slot, hm, hc]

theorem State.reg_congr (hr : t.registers = s.registers) (hc : t.cfg = s.cfg) (k : Nat) : t.reg k = s.reg k := by
  rw [State.reg, State.reg, hr, hc]

theorem State.spaceSize_congr (hc : t.cfg = s.cfg) (sp : Space) : t.spaceSize sp = s.spaceSize sp := by
  cases sp
  · exact congrArg Config.numCells hc
  · exact congrArg Config.numRegs hc

/-! ## The checks (R47, R48, R108, R114) -/

/-- R114: the indices an instruction uses, in the order of its pseudocode, each with the space it must lie in. -/
def indexChecks : Instr → List (Space × Nat)
  | .stl a _ => [(.memory, a)]
  | .ld a r => [(.memory, a), (.registers, r)]
  | .mul a b d => [(.registers, a), (.registers, b), (.registers, d)]
  | .st a r => [(.registers, r), (.memory, a)]
  | .decr r | .push r | .pop r => [(.registers, r)]
  | .mov a d => [(.registers, a), (.registers, d)]
  | .nop | .jmpc _ | .jmp _ | .ldra _ | .ret | .pushra | .popra => []

/-- R111: the fault of an index that is out of range. -/
def indexFault (s : State) (x : Space × Nat) : Option Fault :=
  if x.2 < s.spaceSize x.1 then none else some (.indexOutOfRange s.pc x.1 x.2)

/-- R110: the fault of a pop where there is nothing to pop. -/
def stackFault (s : State) (i : Instr) : Option Fault :=
  if (portsOf i.kind).stack = .pop ∧ s.stack = [] then some (.emptyStack s.pc) else none

/-- R114: the fault an instruction raises: of its first index out of range, else of the stack. -/
def firstFault (s : State) (i : Instr) : Option Fault := ((indexChecks i).findSome? (indexFault s)).or (stackFault s i)

/-! ## The writes (R87) -/

/-- The top of the stack; zeros where there is none, which no instruction that passes its checks reads. -/
def State.top (s : State) : Bits := s.stack.getLastD (zeros s.cfg.literalSize)

/-- R40: what an instruction does to the stack. -/
inductive StackWrite where
  | keep
  | push (v : Bits)
  | pop

/-- What an instruction writes: a register, a cell, the stack, `ra`. -/
structure Writes where
  reg   : Option (Nat × Bits) := none
  cell  : Option (Nat × Bits) := none
  stack : StackWrite := .keep
  ra    : Option Bits := none

/-- The writes of an instruction, from the state before any of them. -/
def writes (s : State) : Instr → Writes
  | .stl a v => { cell := some (a, v) }
  | .ld a r => { reg := some (r, s.cell a) }
  | .mul a b d => { reg := some (d, product s.cfg.literalSize (s.reg a) (s.reg b)) }
  | .st a r => { cell := some (a, s.reg r) }
  | .decr r => { reg := some (r, decrement s.cfg.literalSize (s.reg r)) }
  | .push r => { stack := .push (s.reg r) }
  | .pop r => { reg := some (r, s.top), stack := .pop }
  | .ldra v => { ra := some v }
  | .pushra => { stack := .push s.ra }
  | .popra => { stack := .pop, ra := some s.top }
  | .mov a d => { reg := some (d, s.reg a) }
  | .nop | .jmpc _ | .jmp _ | .ret => {}

/-- The register file after the register write. -/
def Writes.registers (w : Writes) (rs : List Bits) : List Bits :=
  match w.reg with
  | some (k, v) => rs.set k v
  | none => rs

/-- Data memory of `l`-bit cells after the cell write. -/
def Writes.memory (w : Writes) (l : Nat) (m : Memory) : Memory :=
  match w.cell with
  | some (a, v) => Memory.write l m a v
  | none => m

/-- The stack after the stack write. -/
def Writes.stackAfter (w : Writes) (st : List Bits) : List Bits :=
  match w.stack with
  | .keep => st
  | .push v => st ++ [v]
  | .pop => st.dropLast

/-- R86, R87: all writes of an instruction made, and the pointer at `n`. -/
def State.commit (s : State) (w : Writes) (n : Nat) : State :=
  { s with
    registers := w.registers s.registers
    memory := w.memory s.cfg.literalSize s.memory
    stack := w.stackAfter s.stack
    ra := w.ra.getD s.ra
    pc := n }

/-- The state an instruction ends in. -/
def outcome (s : State) (i : Instr) : State :=
  match firstFault s i with
  | some f => s.raise f
  | none => s.commit (writes s i) (successor s i)

theorem outcome_of_fault (h : firstFault s i = some f) : outcome s i = s.raise f := by simp only [outcome, h]

theorem outcome_of_no_fault (h : firstFault s i = none) : outcome s i = s.commit (writes s i) (successor s i) := by
  simp only [outcome, h]

theorem indexFault_eq_none {x : Space × Nat} (h : x.2 < s.spaceSize x.1) : indexFault s x = none := if_pos h

theorem indexFault_eq_some {x : Space × Nat} (h : ¬ x.2 < s.spaceSize x.1) :
    indexFault s x = some (.indexOutOfRange s.pc x.1 x.2) := if_neg h

/-- The checks in order, as a nest of conditionals: the form in which the equations of the meanings have them. -/
theorem outcome_eq_ite (i : Instr) (s : State) : outcome s i = (indexChecks i).foldr
    (fun x t => if x.2 < s.spaceSize x.1 then t else s.raise (.indexOutOfRange s.pc x.1 x.2))
    ((stackFault s i).elim (s.commit (writes s i) (successor s i)) s.raise) := by
  rw [outcome, firstFault]
  induction indexChecks i with
  | nil =>
    rw [List.findSome?_nil, Option.none_or, List.foldr_nil]
    cases stackFault s i <;> rfl
  | cons x xs ih =>
    rw [List.foldr_cons, ← ih]
    by_cases hx : x.2 < s.spaceSize x.1
    · rw [List.findSome?_cons, indexFault_eq_none hx, if_pos hx]
    · rw [List.findSome?_cons, indexFault_eq_some hx, if_neg hx]
      rfl

theorem stackFault_eq_none (h : s.stack ≠ []) : stackFault s i = none := if_neg fun hi => h hi.2

theorem stackFault_eq_some (hi : (portsOf i.kind).stack = .pop) (h : s.stack = []) :
    stackFault s i = some (.emptyStack s.pc) := if_pos ⟨hi, h⟩

theorem top_of_getLast? {v : Bits} (h : s.stack.getLast? = some v) : s.stack ≠ [] ∧ s.top = v := by
  refine ⟨fun hnil => ?_, ?_⟩
  · rw [hnil, List.getLast?_nil] at h
    cases h
  · rw [State.top, List.getLastD_eq_getLast?, h, Option.getD_some]

/-- R87, R113: every instruction raises the fault of its first failing check or makes all of its writes. -/
theorem exec_eq (i : Instr) (s : State) : exec i s = .next (outcome s i) := by
  rw [outcome_eq_ite]
  cases i with
  | nop | jmp _ | ldra _ | ret | pushra => rfl
  | jmpc a =>
    rw [exec, execJmpc]
    simp only [successor]
    split <;> rfl
  | stl a v => exact execStl_eq a v s
  | ld a r => exact execLd_eq a r s
  | st a r => exact execSt_eq a r s
  | mul a b d => exact execMul_eq a b d s
  | decr r => exact execDecr_eq r s
  | mov a d => exact execMov_eq a d s
  | push r => exact execPush_eq r s
  | pop r =>
    rw [exec, execPop_eq]
    cases hlast : s.stack.getLast? with
    | none => rw [stackFault_eq_some rfl (List.getLast?_eq_none_iff.1 hlast)]; rfl
    | some v =>
      obtain ⟨hne, rfl⟩ := top_of_getLast? hlast
      rw [stackFault_eq_none hne]
      rfl
  | popra =>
    rw [exec, execPopra_eq]
    cases hlast : s.stack.getLast? with
    | none => rw [stackFault_eq_some rfl (List.getLast?_eq_none_iff.1 hlast)]; rfl
    | some v =>
      obtain ⟨hne, rfl⟩ := top_of_getLast? hlast
      rw [stackFault_eq_none hne]
      rfl

/-- How an instruction that answers `t` ended: in the fault of its first failing check, or with all its writes. -/
theorem exec_cases (h : exec i s = .next t) :
    (∃ f, firstFault s i = some f ∧ t = s.raise f)
      ∨ (firstFault s i = none ∧ t = s.commit (writes s i) (successor s i)) := by
  rw [exec_eq] at h
  cases h
  cases hf : firstFault s i with
  | none => exact .inr ⟨rfl, outcome_of_no_fault hf⟩
  | some f => exact .inl ⟨f, rfl, outcome_of_fault hf⟩

/-! ## What a fault says (R110, R111, R114) -/

theorem indexFault_eq_none_iff {x : Space × Nat} : indexFault s x = none ↔ x.2 < s.spaceSize x.1 := by
  simp [indexFault]

theorem stackFault_eq_some_iff :
    stackFault s i = some f ↔ (portsOf i.kind).stack = .pop ∧ s.stack = [] ∧ f = .emptyStack s.pc := by
  simp [stackFault, and_assoc, eq_comm]

/-- R47, R48: no index fault where every index used lies in its space. -/
theorem findSome?_indexFault_eq_none_iff :
    (indexChecks i).findSome? (indexFault s) = none ↔ ∀ x ∈ indexChecks i, x.2 < s.spaceSize x.1 := by
  simp only [List.findSome?_eq_none_iff, indexFault_eq_none_iff]

/-- Past its checks, every index an instruction uses lies in its space. -/
theorem index_lt_of_no_fault (h : firstFault s i = none) : ∀ x ∈ indexChecks i, x.2 < s.spaceSize x.1 :=
  findSome?_indexFault_eq_none_iff.1 (Option.or_eq_none_iff.1 h).1

/-- R114: the fault raised is of an index out of range, or, where all are in range, of the empty stack of a pop. -/
theorem firstFault_cases (h : firstFault s i = some f) :
    (∃ x ∈ indexChecks i, s.spaceSize x.1 ≤ x.2 ∧ f = .indexOutOfRange s.pc x.1 x.2)
      ∨ ((∀ x ∈ indexChecks i, x.2 < s.spaceSize x.1)
        ∧ (portsOf i.kind).stack = .pop ∧ s.stack = [] ∧ f = .emptyStack s.pc) := by
  rcases Option.or_eq_some_iff.1 h with hindex | ⟨hindex, hstack⟩
  · obtain ⟨x, hx, hf⟩ := List.exists_of_findSome?_eq_some hindex
    have hout : ¬ x.2 < s.spaceSize x.1 := fun hin => by simp [indexFault_eq_none hin] at hf
    rw [indexFault_eq_some hout] at hf
    cases hf
    exact .inl ⟨x, hx, not_lt.1 hout, rfl⟩
  · exact .inr ⟨findSome?_indexFault_eq_none_iff.1 hindex, stackFault_eq_some_iff.1 hstack⟩

/-- R110: EmptyStack is raised exactly by a pop of the empty stack whose indices are in range, and records `i`. -/
theorem firstFault_eq_emptyStack_iff {k : Nat} : firstFault s i = some (.emptyStack k) ↔
    (∀ x ∈ indexChecks i, x.2 < s.spaceSize x.1) ∧ (portsOf i.kind).stack = .pop ∧ s.stack = [] ∧ k = s.pc := by
  constructor
  · intro h
    rcases firstFault_cases h with ⟨x, -, -, hf⟩ | ⟨hin, hpop, hnil, hf⟩
    · cases hf
    · cases hf
      exact ⟨hin, hpop, hnil, rfl⟩
  · rintro ⟨hin, hpop, hnil, rfl⟩
    rw [firstFault, findSome?_indexFault_eq_none_iff.2 hin, Option.none_or, stackFault_eq_some hpop hnil]

/-- R113: the fault an instruction raises records what is true of the state. -/
theorem statusOk_raise_of_firstFault (h : firstFault s i = some f) : (s.raise f).statusOk = true := by
  rcases firstFault_cases h with ⟨x, -, hout, rfl⟩ | ⟨-, -, hnil, rfl⟩
  · have hsize := State.spaceSize_congr (State.raise_cfg s (.indexOutOfRange s.pc x.1 x.2)) x.1
    simp [State.statusOk, hsize, hout]
  · simp [State.statusOk, hnil]

/-! ## What the writes are (R41) -/

/-- R41: the register written is the one the write port names. -/
theorem writes_reg (i : Instr) (s : State) :
    (writes s i).reg.map (·.1) = (portsOf i.kind).writeReg.bind i.indexField := by
  cases i <;> rfl

/-- R41: the cell written is the one the memory write port names. -/
theorem writes_cell (i : Instr) (s : State) :
    (writes s i).cell.map (·.1) = (portsOf i.kind).memWrite.bind i.indexField := by
  cases i <;> rfl

/-- R40: the stack port a stack write needs. -/
def StackWrite.port : StackWrite → StackPort
  | .keep => .idle
  | .push _ => .push
  | .pop => .pop

theorem writes_stack_port (i : Instr) (s : State) : (writes s i).stack.port = (portsOf i.kind).stack := by
  cases i <;> rfl

theorem writes_ra_isSome (i : Instr) (s : State) : (writes s i).ra.isSome = (portsOf i.kind).raLoad := by
  cases i <;> rfl

theorem successor_of_transfer_eq_false (h : (portsOf i.kind).transfer = false) : successor s i = s.pc + 1 := by
  cases i with
  | jmpc _ | jmp _ | ret => cases h
  | _ => rfl

theorem writes_stack_of_idle (h : (portsOf i.kind).stack = .idle) : (writes s i).stack = .keep := by
  have hport := (writes_stack_port i s).trans h
  cases hw : (writes s i).stack with
  | keep => rfl
  | push _ | pop => simp [hw, StackWrite.port] at hport

/-! ## What a commit changes -/

section
variable {w : Writes} {n : Nat}

theorem commit_registers (h : w.reg = none) : (s.commit w n).registers = s.registers := by
  simp only [State.commit, Writes.registers, h]

theorem commit_memory (h : w.cell = none) : (s.commit w n).memory = s.memory := by
  simp only [State.commit, Writes.memory, h]

theorem commit_stack (h : w.stack = .keep) : (s.commit w n).stack = s.stack := by
  simp only [State.commit, Writes.stackAfter, h]

theorem commit_ra (h : w.ra = none) : (s.commit w n).ra = s.ra := by
  simp only [State.commit, h, Option.getD_none]

theorem length_commit_registers : (s.commit w n).registers.length = s.registers.length := by
  simp only [State.commit, Writes.registers]
  split
  · exact List.length_set
  · rfl

/-- A register other than the one written keeps its value. -/
theorem commit_reg_of_ne {k : Nat} (h : ∀ d, w.reg.map (·.1) = some d → k ≠ d) : (s.commit w n).reg k = s.reg k := by
  cases hw : w.reg with
  | none => rw [State.reg, commit_registers hw]; rfl
  | some x =>
    have hset : (s.commit w n).registers = (s.setReg x.1 x.2).registers := by
      simp only [State.commit, Writes.registers, hw, State.setReg]
    rw [State.reg, hset]
    exact reg_setReg_other (s := s) (h x.1 (by rw [hw, Option.map_some]))

/-- A cell other than the one written keeps its value. -/
theorem commit_cell_of_ne {b : Nat} (h : ∀ a, w.cell.map (·.1) = some a → b ≠ a) :
    (s.commit w n).cell b = s.cell b := by
  cases hw : w.cell with
  | none => rw [State.cell, commit_memory hw]; rfl
  | some x =>
    have hset : (s.commit w n).memory = (s.setCell x.1 x.2).memory := by
      simp only [State.commit, Writes.memory, hw, State.setCell]
    rw [State.cell, hset]
    exact cell_setCell_other (s := s) (h x.1 (by rw [hw, Option.map_some]))

end

end Sys2Proof.Machine
end

section
/-! Frames and ports (spec/10_state.md section 9): what an instruction leaves unchanged, by the write ports its kind marks, and
what it does not read, by the read ports. -/

namespace Sys2Proof.Machine

variable {s s' t : State} {i : Instr}

/-! ## Write ports (R41) -/

/-- Settles O36: the writes of an instruction are those its ports mark; a fault leaves everything. -/
theorem idlePortsChangeNothing : Obligations.IdlePortsChangeNothing := by
  intro i s t h
  rcases exec_cases h with ⟨f, -, rfl⟩ | ⟨-, rfl⟩
  · exact ⟨fun _ => rfl, fun _ => rfl, fun _ => rfl, fun _ => rfl, fun _ => .inr ⟨f, rfl⟩, rfl, rfl, rfl⟩
  · have hreg := writes_reg i s
    have hcell := writes_cell i s
    have hra := writes_ra_isSome i s
    refine ⟨fun h => commit_registers ?_, fun h => commit_memory ?_, fun h => commit_stack (writes_stack_of_idle h),
      fun h => commit_ra ?_, fun h => .inl (successor_of_transfer_eq_false h), rfl, rfl, rfl⟩
    · simpa [h] using hreg
    · simpa [h] using hcell
    · simpa [h] using hra

/-- A register that the write port does not name keeps its value. -/
theorem reg_of_exec (h : exec i s = .next t) {k : Nat}
    (hk : ∀ d, (portsOf i.kind).writeReg.bind i.indexField = some d → k ≠ d) : t.reg k = s.reg k := by
  rcases exec_cases h with ⟨f, -, rfl⟩ | ⟨-, rfl⟩
  · rfl
  · exact commit_reg_of_ne fun d hd => hk d ((writes_reg i s).symm.trans hd)

/-- A cell that the memory write port does not name keeps its value. -/
theorem cell_of_exec (h : exec i s = .next t) {b : Nat}
    (hb : ∀ a, (portsOf i.kind).memWrite.bind i.indexField = some a → b ≠ a) : t.cell b = s.cell b := by
  rcases exec_cases h with ⟨f, -, rfl⟩ | ⟨-, rfl⟩
  · rfl
  · exact commit_cell_of_ne fun a ha => hb a ((writes_cell i s).symm.trans ha)

theorem length_registers_of_exec (h : exec i s = .next t) : t.registers.length = s.registers.length := by
  rcases exec_cases h with ⟨f, -, rfl⟩ | ⟨-, rfl⟩
  · rfl
  · exact length_commit_registers

/-- R113: the status is kept, or the instruction faulted and changed nothing else. -/
theorem status_of_exec (h : exec i s = .next t) : t.status = s.status ∨ ∃ f, t = { s with status := .fault f } := by
  rcases exec_cases h with ⟨f, -, rfl⟩ | ⟨-, rfl⟩
  · exact .inr ⟨f, rfl⟩
  · exact .inl rfl

theorem stack_of_exec (h : exec i s = .next t) :
    t.stack = s.stack ∨ (firstFault s i = none ∧ t.stack = (writes s i).stackAfter s.stack) := by
  rcases exec_cases h with ⟨f, -, rfl⟩ | ⟨hf, rfl⟩
  · exact .inl rfl
  · exact .inr ⟨hf, rfl⟩

/-- R41: LD, MUL, DECR, MOV and POP mark the write port of their destination and no port of the memory or of `ra`; of them POP
alone marks the stack. -/
theorem ports_of_register_writer {d : Nat}
    (hi : (∃ a, i = .ld a d) ∨ (∃ a b, i = .mul a b d) ∨ i = .decr d ∨ (∃ a, i = .mov a d) ∨ i = .pop d) :
    (portsOf i.kind).writeReg.bind i.indexField = some d ∧ (portsOf i.kind).memWrite = none
      ∧ (portsOf i.kind).raLoad = false ∧ ((portsOf i.kind).stack = .idle ∨ i = .pop d) := by
  rcases hi with ⟨a, rfl⟩ | ⟨a, b, rfl⟩ | rfl | ⟨a, rfl⟩ | rfl
  · exact ⟨rfl, rfl, rfl, .inl rfl⟩
  · exact ⟨rfl, rfl, rfl, .inl rfl⟩
  · exact ⟨rfl, rfl, rfl, .inl rfl⟩
  · exact ⟨rfl, rfl, rfl, .inl rfl⟩
  · exact ⟨rfl, rfl, rfl, .inr rfl⟩

/-- Settles O32: by the ports that the register-writing instructions mark. -/
theorem registerWritersFrame : Obligations.RegisterWritersFrame := by
  intro i d s t hi h
  obtain ⟨hdest, hmemPort, hraPort, hstackPort⟩ := ports_of_register_writer hi
  obtain ⟨-, hmem, hstack, hra, -, hcommands, hcursor, hcfg⟩ := idlePortsChangeNothing i s t h
  refine ⟨fun k hk => reg_of_exec h fun d' hd' => ?_, State.cell_congr (hmem hmemPort) hcfg,
    State.slot_congr hcommands hcfg, hmem hmemPort, hcommands, hcfg, hcursor, hra hraPort, length_registers_of_exec h, ?_,
    status_of_exec h⟩
  · cases hdest.symm.trans hd'
    exact hk
  · rcases hstackPort with hidle | rfl
    · exact .inl (hstack hidle)
    · exact (stack_of_exec h).imp_right fun hpop => ⟨rfl, hpop.2⟩

/-- Settles O33: STL and ST mark the memory write port, named by their address, and no other write port. -/
theorem storingFrame : Obligations.StoringFrame := by
  intro i a s t hi h
  have hports : (portsOf i.kind).memWrite.bind i.indexField = some a ∧ (portsOf i.kind).writeReg = none
      ∧ (portsOf i.kind).raLoad = false ∧ (portsOf i.kind).stack = .idle := by
    rcases hi with ⟨v, rfl⟩ | ⟨r, rfl⟩ <;> exact ⟨rfl, rfl, rfl, rfl⟩
  obtain ⟨haddr, hregPort, hraPort, hidle⟩ := hports
  obtain ⟨hreg, -, hstack, hra, -, hcommands, hcursor, hcfg⟩ := idlePortsChangeNothing i s t h
  refine ⟨fun b hb => cell_of_exec h fun a' ha' => ?_, State.reg_congr (hreg hregPort) hcfg,
    State.slot_congr hcommands hcfg, hreg hregPort, hstack hidle, hra hraPort, hcommands, hcfg, hcursor,
    status_of_exec h⟩
  cases haddr.symm.trans ha'
  exact hb

/-- Settles O34: NOP, JMPC, JMP, RET and LDRA check nothing and mark no write port but, for LDRA, that of `ra`. -/
theorem transferFrame : Obligations.TransferFrame := by
  intro i s t hi h
  have hports : (portsOf i.kind).writeReg = none ∧ (portsOf i.kind).memWrite = none ∧ (portsOf i.kind).stack = .idle
      ∧ firstFault s i = none ∧ ((portsOf i.kind).raLoad = false ∨ ∃ v, i = .ldra v) := by
    rcases hi with rfl | ⟨a, rfl⟩ | ⟨a, rfl⟩ | rfl | ⟨v, rfl⟩
    · exact ⟨rfl, rfl, rfl, rfl, .inl rfl⟩
    · exact ⟨rfl, rfl, rfl, rfl, .inl rfl⟩
    · exact ⟨rfl, rfl, rfl, rfl, .inl rfl⟩
    · exact ⟨rfl, rfl, rfl, rfl, .inl rfl⟩
    · exact ⟨rfl, rfl, rfl, rfl, .inr ⟨v, rfl⟩⟩
  obtain ⟨hregPort, hmemPort, hidle, hnone, hraPort⟩ := hports
  obtain ⟨hreg, hmem, hstack, hra, -, hcommands, hcursor, hcfg⟩ := idlePortsChangeNothing i s t h
  have ht : t = s.commit (writes s i) (successor s i) := by
    rw [exec_eq, outcome_of_no_fault hnone] at h
    cases h
    rfl
  refine ⟨State.reg_congr (hreg hregPort) hcfg, State.cell_congr (hmem hmemPort) hcfg, State.slot_congr hcommands hcfg,
    hreg hregPort, hmem hmemPort, hcommands, hstack hidle, hcfg, hcursor, (congrArg State.status ht :), ?_⟩
  rcases hraPort with hunmarked | ⟨v, rfl⟩
  · exact .inl (hra hunmarked)
  · exact .inr ⟨v, rfl, congrArg State.ra ht⟩

/-- Settles O35: PUSH, PUSHRA and POPRA mark no write port of registers or memory; the stack grows at its top or loses it. -/
theorem stackFrame : Obligations.StackFrame := by
  intro i s t hi h
  have hports : (portsOf i.kind).writeReg = none ∧ (portsOf i.kind).memWrite = none
      ∧ (i ≠ .popra → (portsOf i.kind).raLoad = false ∧ ∃ v, (writes s i).stack = .push v) := by
    rcases hi with ⟨r, rfl⟩ | rfl | rfl
    · exact ⟨rfl, rfl, fun _ => ⟨rfl, _, rfl⟩⟩
    · exact ⟨rfl, rfl, fun _ => ⟨rfl, _, rfl⟩⟩
    · exact ⟨rfl, rfl, fun hne => absurd rfl hne⟩
  obtain ⟨hregPort, hmemPort, hpush⟩ := hports
  obtain ⟨hreg, hmem, -, hra, -, hcommands, hcursor, hcfg⟩ := idlePortsChangeNothing i s t h
  refine ⟨State.reg_congr (hreg hregPort) hcfg, State.cell_congr (hmem hmemPort) hcfg, State.slot_congr hcommands hcfg,
    hreg hregPort, hmem hmemPort, hcommands, hcfg, hcursor, fun hne => ?_, ?_, status_of_exec h⟩
  · obtain ⟨hraPort, v, hv⟩ := hpush hne
    refine ⟨hra hraPort, ?_⟩
    rcases stack_of_exec h with hst | ⟨-, hst⟩
    · rw [hst]
    · rw [hst, Writes.stackAfter, hv]
      exact List.prefix_append _ _
  · rintro rfl
    rcases stack_of_exec h with hst | ⟨-, hst⟩
    · rw [hst]
    · rw [hst]
      exact List.dropLast_prefix _

/-- Settles O45: the normal form answers a next state. -/
theorem everyInstructionAnswersNext : Obligations.EveryInstructionAnswersNext :=
  fun i s => ⟨outcome s i, exec_eq i s⟩

/-! ## Read ports (R41) -/

/-- Two states alike in the configuration, the pointer, and all that an instruction reads by the ports its kind marks. -/
structure ReadsAlike (i : Instr) (s s' : State) : Prop where
  cfg : s'.cfg = s.cfg
  pc : s'.pc = s.pc
  reg : ∀ k, (portsOf i.kind).readA.bind (readIndexOf i) = some k
    ∨ (portsOf i.kind).readB.bind (readIndexOf i) = some k → s'.reg k = s.reg k
  cell : ∀ a, (portsOf i.kind).memRead.bind i.indexField = some a → s'.cell a = s.cell a
  ra : (portsOf i.kind).raRead = true → s'.ra = s.ra
  stack : (portsOf i.kind).stack = .pop → s'.stack = s.stack

theorem ReadsAlike.firstFault_eq (h : ReadsAlike i s s') : firstFault s' i = firstFault s i := by
  have hindex : indexFault s' = indexFault s := by
    funext x
    rw [indexFault, indexFault, State.spaceSize_congr h.cfg, h.pc]
  have hstack : stackFault s' i = stackFault s i := by
    by_cases hpop : (portsOf i.kind).stack = .pop
    · simp only [stackFault, h.stack hpop, h.pc]
    · simp only [stackFault, hpop, false_and, if_false]
  rw [firstFault, firstFault, hindex, hstack]

theorem ReadsAlike.writes_eq (h : ReadsAlike i s s') : writes s' i = writes s i := by
  have top (hpop : (portsOf i.kind).stack = .pop) : s'.top = s.top := by
    rw [State.top, State.top, h.stack hpop, h.cfg]
  cases i with
  | nop | jmpc _ | jmp _ | ret | stl _ _ | ldra _ => rfl
  | ld a r => rw [writes, writes, h.cell a rfl]
  | mul a b d => rw [writes, writes, h.reg a (.inl rfl), h.reg b (.inr rfl), h.cfg]
  | st a r => rw [writes, writes, h.reg r (.inl rfl)]
  | decr r => rw [writes, writes, h.reg r (.inl rfl), h.cfg]
  | push r => rw [writes, writes, h.reg r (.inl rfl)]
  | mov a d => rw [writes, writes, h.reg a (.inl rfl)]
  | pop r => rw [writes, writes, top rfl]
  | pushra => rw [writes, writes, h.ra rfl]
  | popra => rw [writes, writes, top rfl]

theorem ReadsAlike.successor_eq (h : ReadsAlike i s s') : successor s' i = successor s i := by
  cases i with
  | jmpc a => rw [successor, successor, h.reg 0 (.inl rfl), h.pc]
  | jmp a => rfl
  | ret => rw [successor, successor, h.ra rfl]
  | _ => exact congrArg (· + 1) h.pc

/-- R41: in states alike in what it reads an instruction raises the same fault or makes the same writes. -/
theorem ReadsAlike.exec_cases (h : ReadsAlike i s s') (ht : exec i s = .next t) :
    (∃ f, t = s.raise f ∧ exec i s' = .next (s'.raise f))
      ∨ (t = s.commit (writes s i) (successor s i)
        ∧ exec i s' = .next (s'.commit (writes s i) (successor s i))) := by
  rw [exec_eq i s']
  rcases Machine.exec_cases ht with ⟨f, hf, rfl⟩ | ⟨hf, rfl⟩
  · exact .inl ⟨f, rfl, congrArg _ (outcome_of_fault (h.firstFault_eq.trans hf))⟩
  · refine .inr ⟨rfl, ?_⟩
    rw [outcome_of_no_fault (h.firstFault_eq.trans hf), h.writes_eq, h.successor_eq]

section
variable {w : Writes} {n : Nat}

/-- The same writes to two register files of one length: each register is written alike or in both left as it was. -/
theorem commit_reg_alike (hlen : s'.registers.length = s.registers.length) (hc : s'.cfg = s.cfg) (k : Nat) :
    (s'.commit w n).reg k = (s.commit w n).reg k
      ∨ ((s'.commit w n).reg k = s'.reg k ∧ (s.commit w n).reg k = s.reg k) := by
  by_cases hk : ∃ v, w.reg = some (k, v)
  · obtain ⟨v, hv⟩ := hk
    left
    simp only [State.commit, Writes.registers, hv, State.reg, List.getD_eq_getElem?_getD, List.getElem?_set_self', hc]
    by_cases hlt : k < s.registers.length
    · simp [hlt, hlen]
    · simp [hlt, hlen]
  · have hne (d : Nat) (hd : w.reg.map (·.1) = some d) : k ≠ d := by
      obtain ⟨⟨_, v⟩, hv, rfl⟩ := Option.map_eq_some_iff.1 hd
      rintro rfl
      exact hk ⟨v, hv⟩
    exact .inr ⟨commit_reg_of_ne hne, commit_reg_of_ne hne⟩

/-- The same writes to two data memories: each cell is written alike or in both left as it was. -/
theorem commit_cell_alike (a : Nat) :
    (s'.commit w n).cell a = (s.commit w n).cell a
      ∨ ((s'.commit w n).cell a = s'.cell a ∧ (s.commit w n).cell a = s.cell a) := by
  by_cases ha : ∃ v, w.cell = some (a, v)
  · obtain ⟨v, hv⟩ := ha
    left
    simp only [State.commit, Writes.memory, hv, State.cell, Memory.read_write_same]
  · have hne (b : Nat) (hb : w.cell.map (·.1) = some b) : a ≠ b := by
      obtain ⟨⟨_, v⟩, hv, rfl⟩ := Option.map_eq_some_iff.1 hb
      rintro rfl
      exact ha ⟨v, hv⟩
    exact .inr ⟨commit_cell_of_ne hne, commit_cell_of_ne hne⟩

/-- The same writes over two values of `ra`: it is written alike or in both left as it was. -/
theorem commit_ra_alike : (s'.commit w n).ra = (s.commit w n).ra
    ∨ ((s'.commit w n).ra = s'.ra ∧ (s.commit w n).ra = s.ra) := by
  cases hw : w.ra with
  | none => exact .inr ⟨commit_ra hw, commit_ra hw⟩
  | some v => exact .inl (by simp only [State.commit, hw, Option.getD_some])

end

/-- Settles O37: with other contents at the places not read the states are alike for the instruction, which then makes the same
writes. -/
theorem unmarkedReadPortsAreNotRead : Obligations.UnmarkedReadPortsAreNotRead := by
  intro i s t h
  refine ⟨fun rs hlen hagree => ?_, fun m hagree => ?_, fun hra v => ?_, fun hidle st => ?_⟩
  · have alike : ReadsAlike i s { s with registers := rs } :=
      ⟨rfl, rfl, hagree, fun _ _ => rfl, fun _ => rfl, fun _ => rfl⟩
    rcases alike.exec_cases h with ⟨f, rfl, hu⟩ | ⟨rfl, hu⟩
    · exact ⟨_, hu, rfl, fun k => .inr ⟨rfl, rfl⟩⟩
    · exact ⟨_, hu, rfl, commit_reg_alike hlen rfl⟩
  · have alike : ReadsAlike i s { s with memory := m } :=
      ⟨rfl, rfl, fun _ _ => rfl, hagree, fun _ => rfl, fun _ => rfl⟩
    rcases alike.exec_cases h with ⟨f, rfl, hu⟩ | ⟨rfl, hu⟩
    · exact ⟨_, hu, rfl, fun a => .inr ⟨rfl, rfl⟩⟩
    · exact ⟨_, hu, rfl, commit_cell_alike⟩
  · have alike : ReadsAlike i s { s with ra := v } :=
      ⟨rfl, rfl, fun _ _ => rfl, fun _ _ => rfl, fun hmarked => by simp [hra] at hmarked, fun _ => rfl⟩
    rcases alike.exec_cases h with ⟨f, rfl, hu⟩ | ⟨rfl, hu⟩
    · exact ⟨_, hu, rfl, .inr ⟨rfl, rfl⟩⟩
    · exact ⟨_, hu, rfl, commit_ra_alike⟩
  · have alike : ReadsAlike i s { s with stack := st } :=
      ⟨rfl, rfl, fun _ _ => rfl, fun _ _ => rfl, fun _ => rfl, fun hpop => by simp [hidle] at hpop⟩
    rcases alike.exec_cases h with ⟨f, rfl, hu⟩ | ⟨rfl, hu⟩
    · exact hu
    · rw [hu]
      simp only [State.commit, Writes.stackAfter, writes_stack_of_idle hidle]

end Sys2Proof.Machine
end

section
/-! The step (spec/40_execution_cycle.md section 1): what a step of a running machine answers, and from it the ends of a run,
what no step changes or reads, and the faults. -/

namespace Sys2Proof.Machine

variable {s t : State} {i : Instr} {op : Nat} {f : Fault}

/-! ## The step of a running machine (R82 to R85) -/

/-- What a step of a running machine answers: the end of the run, a fetch fault, an unrecognised word passed over, or the
decoded instruction's fault or writes. -/
inductive StepsTo (s : State) : State → Prop
  | halt (hpc : s.pc = s.cfg.numSlots) : StepsTo s s.halt
  | fetchFault (hpc : s.cfg.numSlots < s.pc) : StepsTo s (s.raise (.fetchOutOfRange s.pc))
  | ignore (hpc : s.pc < s.cfg.numSlots) : StepsTo s s.advance
  | fault {op : Nat} {i : Instr} {f : Fault} (hd : decode s.cfg (fetch s) = .recognised op i)
      (hf : firstFault s i = some f) : StepsTo s (s.raise f)
  | commit {op : Nat} {i : Instr} (hpc : s.pc < s.cfg.numSlots) (hd : decode s.cfg (fetch s) = .recognised op i)
      (hf : firstFault s i = none) : StepsTo s (s.commit (writes s i) (successor s i))

theorem stepsTo_of_step (hs : s.status = .running) (h : step s = .next t) : StepsTo s t := by
  obtain ⟨-, ⟨-, hrun⟩ | ⟨hhalted, -⟩⟩ := step_next h
  · obtain ⟨hpc, rfl⟩ | ⟨hpc, rfl⟩ | ⟨hpc, op, hd, rfl⟩ | ⟨hpc, op, i, hd, hexec⟩ := runStep_next hrun
    · exact .halt hpc
    · exact .fetchFault hpc
    · exact .ignore hpc
    · obtain ⟨f, hf, rfl⟩ | ⟨hf, rfl⟩ := exec_cases hexec
      · exact .fault hd hf
      · exact .commit hpc hd hf
  · cases hs.symm.trans hhalted

theorem runStep_of_recognised (hpc : s.pc < s.cfg.numSlots) (hd : decode s.cfg (fetch s) = .recognised op i) :
    runStep s = exec i s := by
  simp only [runStep, if_neg hpc.ne, if_neg hpc.asymm, hd]

theorem step_at_slotCount (hwf : s.cfg.wf = true) (hs : s.status = .running) (hpc : s.pc = s.cfg.numSlots) :
    step s = .next s.halt := (step_of_running hwf hs).trans (if_pos hpc)

theorem step_past_slotCount (hwf : s.cfg.wf = true) (hs : s.status = .running) (hpc : s.cfg.numSlots < s.pc) :
    step s = .next (s.raise (.fetchOutOfRange s.pc)) := by
  rw [step_of_running hwf hs, runStep, if_neg hpc.ne', if_pos hpc]

/-- R66, R72: under a well-formed configuration a running machine always has a next state. -/
theorem exists_step (hwf : s.cfg.wf = true) (hs : s.status = .running) : ∃ t, step s = .next t := by
  obtain hpc | hpc | hpc := lt_trichotomy s.pc s.cfg.numSlots
  · rw [step_of_running hwf hs]
    obtain ⟨-, hd⟩ | ⟨-, i, hd⟩ := decode_cases hwf (fetch s)
    · exact ⟨_, runStep_of_unrecognised hpc hd⟩
    · exact ⟨_, (runStep_of_recognised hpc hd).trans (exec_eq i s)⟩
  · exact ⟨_, step_at_slotCount hwf hs hpc⟩
  · exact ⟨_, step_past_slotCount hwf hs hpc⟩

theorem step_of_illFormed (hwf : s.cfg.wf = false) : step s = .refused .illFormedConfig := by
  simp [step, hwf]

theorem step_of_halted (hwf : s.cfg.wf = true) (hs : s.status = .halted) : step s = .next s := by
  simp only [step, hwf, hs, if_true]

theorem step_of_fault (hwf : s.cfg.wf = true) (hs : s.status = .fault f) : step s = .fault f := by
  simp only [step, hwf, hs, if_true]

/-! ## The ends of a run -/

/-- Settles O11: past the guards of the fetch the step is the dispatch. -/
theorem stepRunsTheDecodedInstruction : Obligations.StepRunsTheDecodedInstruction :=
  fun _ _ _ hwf hs hpc hd => (step_of_running hwf hs).trans (runStep_of_recognised hpc hd)

/-- Settles O12: of the five answers of a running machine the halt alone has the status HALTED. -/
theorem runEndsExactlyAtTheSlotCount : Obligations.RunEndsExactlyAtTheSlotCount := by
  refine ⟨fun s => step_at_slotCount, fun s t hs h hhalted => ?_⟩
  cases stepsTo_of_step hs h with
  | halt hpc => exact ⟨hpc, rfl⟩
  | fetchFault | fault => cases hhalted
  | ignore | commit => cases hs.symm.trans hhalted

/-- No instruction raises FetchOutOfRange. -/
theorem firstFault_ne_fetchOutOfRange {k : Nat} : firstFault s i ≠ some (.fetchOutOfRange k) := by
  intro h
  obtain ⟨x, -, -, hf⟩ | ⟨-, -, -, hf⟩ := firstFault_cases h <;> cases hf

/-- Settles O13: of the five answers of a running machine the fetch fault alone records FetchOutOfRange. -/
theorem fetchPastTheEndFaults : Obligations.FetchPastTheEndFaults := by
  refine ⟨fun s => step_past_slotCount, fun s t k hs h hfault => ?_⟩
  cases stepsTo_of_step hs h with
  | halt => cases hfault
  | fetchFault hpc =>
    cases hfault
    exact ⟨hpc, rfl⟩
  | ignore | commit => cases hs.symm.trans hfault
  | fault hd hf =>
    cases hfault
    exact absurd hf firstFault_ne_fetchOutOfRange

/-- Settles O15: the status alone decides. -/
theorem stoppedMachineTakesNoStep : Obligations.StoppedMachineTakesNoStep :=
  ⟨fun _ _ => step_of_fault, fun _ => step_of_halted⟩

/-- Settles O16: under a well-formed configuration each status has its answer, none a refusal. -/
theorem onlyIllFormedConfigsAreRefused : Obligations.OnlyIllFormedConfigsAreRefused := by
  intro s r
  cases hwf : s.cfg.wf with
  | false => simp [step_of_illFormed hwf, eq_comm]
  | true =>
    have hanswer : step s ≠ .refused r := by
      cases hs : s.status with
      | running =>
        obtain ⟨t, ht⟩ := exists_step hwf hs
        simp [ht]
      | halted => simp [step_of_halted hwf hs]
      | fault f => simp [step_of_fault hwf hs]
    simp [hanswer]

/-! ## What no step changes and no step reads -/

/-- Settles O39: none of the answers of a running machine touches program memory, the cursor or the configuration. -/
theorem stepNeverWritesProgramMemory : Obligations.StepNeverWritesProgramMemory := by
  intro s t h
  have hkept : t.commands = s.commands ∧ t.cursor = s.cursor ∧ t.cfg = s.cfg := by
    obtain ⟨-, ⟨hs, -⟩ | ⟨-, rfl⟩⟩ := step_next h
    · cases stepsTo_of_step hs h with
      | halt | fetchFault | ignore | fault | commit => exact ⟨rfl, rfl, rfl⟩
    · exact ⟨rfl, rfl, rfl⟩
  obtain ⟨hcommands, hcursor, hcfg⟩ := hkept
  exact ⟨hcommands, State.slot_congr hcommands hcfg, hcursor, hcfg⟩

/-- The same state with another load cursor. -/
def State.withCursor (s : State) (k : Nat) : State := { s with cursor := k }

/-- The same outcome with another load cursor in the next state, if there is one. -/
def withCursor (k : Nat) : Host.Outcome State Fault Refusal → Host.Outcome State Fault Refusal
  | .next t => .next (t.withCursor k)
  | .fault f => .fault f
  | .refused r => .refused r

/-- R29: an instruction's checks, writes and successor do not look at the cursor. -/
theorem exec_withCursor (i : Instr) (s : State) (k : Nat) : exec i (s.withCursor k) = withCursor k (exec i s) := by
  have alike : ReadsAlike i s (s.withCursor k) :=
    ⟨rfl, rfl, fun _ _ => rfl, fun _ _ => rfl, fun _ => rfl, fun _ => rfl⟩
  obtain ⟨f, ht, hu⟩ | ⟨ht, hu⟩ := alike.exec_cases (exec_eq i s)
  · rw [hu, exec_eq i s, ht]
    rfl
  · rw [hu, exec_eq i s, ht]
    rfl

theorem runStep_withCursor (s : State) (k : Nat) : runStep (s.withCursor k) = withCursor k (runStep s) := by
  have hfetch : decode (s.withCursor k).cfg (fetch (s.withCursor k)) = decode s.cfg (fetch s) := rfl
  rw [runStep, runStep, hfetch]
  by_cases hend : s.pc = s.cfg.numSlots
  · rw [if_pos hend]
    exact if_pos hend
  by_cases hpast : s.cfg.numSlots < s.pc
  · rw [if_neg hend, if_pos hpast]
    exact (if_neg hend).trans (if_pos hpast)
  rw [if_neg hend, if_neg hpast]
  refine (if_neg hend).trans ((if_neg hpast).trans ?_)
  cases decode s.cfg (fetch s) with
  | unrecognised op => rfl
  | recognised op i => exact exec_withCursor i s k
  | malformed op => rfl

theorem step_withCursor (s : State) (k : Nat) : step (s.withCursor k) = withCursor k (step s) := by
  cases hwf : s.cfg.wf with
  | false => rw [step_of_illFormed hwf, step_of_illFormed (s := s.withCursor k) hwf]; rfl
  | true =>
    cases hs : s.status with
    | running =>
      rw [step_of_running hwf hs, step_of_running (s := s.withCursor k) hwf hs]
      exact runStep_withCursor s k
    | halted => rw [step_of_halted hwf hs, step_of_halted (s := s.withCursor k) hwf hs]; rfl
    | fault f => rw [step_of_fault hwf hs, step_of_fault (s := s.withCursor k) hwf hs]; rfl

/-- Settles O40: the status, the fetch and the dispatched instruction do not depend on the cursor. -/
theorem cursorIsUnobservable : Obligations.CursorIsUnobservable := step_withCursor

/-! ## Faults -/

/-- Settles O41: of the five answers of a running machine only the two faults end in a fault status, and both only raise it. -/
theorem faultsArePrecise : Obligations.FaultsArePrecise := by
  intro s t f hs h hfault
  cases stepsTo_of_step hs h with
  | halt => cases hfault
  | ignore | commit => cases hs.symm.trans hfault
  | fetchFault hpc =>
    cases hfault
    exact ⟨rfl, by simp [State.statusOk, hpc]⟩
  | fault hd hf =>
    cases hfault
    exact ⟨rfl, statusOk_raise_of_firstFault hf⟩

/-- From a running state an instruction ends in a fault status exactly if that is its first fault. -/
theorem exec_status_eq_fault_iff (hs : s.status = .running) :
    (∃ t, exec i s = .next t ∧ t.status = .fault f) ↔ firstFault s i = some f := by
  constructor
  · rintro ⟨t, h, hfault⟩
    obtain ⟨f', hf, rfl⟩ | ⟨-, rfl⟩ := exec_cases h
    · cases hfault
      exact hf
    · cases hs.symm.trans hfault
  · exact fun hf => ⟨s.raise f, (exec_eq i s).trans (congrArg _ (outcome_of_fault hf)), rfl⟩

/-- R110: the pops are POPRA, which checks no index, and POP, which checks its register. -/
theorem pop_checked_iff : ((∀ x ∈ indexChecks i, x.2 < s.spaceSize x.1) ∧ (portsOf i.kind).stack = .pop) ↔
    i = .popra ∨ ∃ r, r < s.cfg.numRegs ∧ i = .pop r := by
  cases i with
  | pop r => simp [indexChecks, portsOf, Instr.kind, State.spaceSize]
  | popra => simp [indexChecks, portsOf, Instr.kind]
  | _ => simp [portsOf, Instr.kind]

/-- Settles O42: by what the fault EmptyStack of an instruction needs. -/
theorem emptyStackIsRaisedByPopsOnly : Obligations.EmptyStackIsRaisedByPopsOnly := by
  intro i s k hs
  rw [exec_status_eq_fault_iff hs, firstFault_eq_emptyStack_iff, ← pop_checked_iff]
  tauto

end Sys2Proof.Machine
end

section
/-! Field widths (spec/60_exceptions.md R111, R112): a field no wider than the addresses of its space holds an index that is in
range, so neither an index nor a target can fault. -/

namespace Sys2Proof.Machine

variable {s : State} {i : Instr}

/-! ## Index fields and their spaces -/

/-- The space a field indexes; `none` for the target and the literal, which no check looks at. -/
def fieldSpace : FieldName → Option Space
  | .memoryAddress => some .memory
  | .registerAddress | .firstOperand | .secondOperand | .firstRegister | .secondRegister => some .registers
  | .commandAddress | .literal => none

/-- Every index checked is the value of a field of the instruction that indexes the space it is checked against. -/
theorem field_of_indexCheck {x : Space × Nat} (h : x ∈ indexChecks i) :
    ∃ n ∈ i.kind.fieldNames, i.indexField n = some x.2 ∧ fieldSpace n = some x.1 := by
  revert x
  cases i <;> simp [indexChecks, Instr.kind, Kind.fieldNames, Instr.indexField, fieldSpace]

/-- A space has two to the width of its addresses elements. -/
theorem spaceSize_of_fieldSpace {n : FieldName} {sp : Space} (h : fieldSpace n = some sp) :
    n ≠ .literal ∧ n ≠ .commandAddress ∧ ∃ b, addressBits s.cfg n = some b ∧ s.spaceSize sp = 2 ^ b := by
  cases n with
  | literal | commandAddress => cases h
  | _ =>
    cases h
    exact ⟨nofun, nofun, _, rfl, rfl⟩

/-- A field no wider than its space's addresses holds an index below the size of the space. -/
theorem indexField_lt_of_narrow {c : Config} {p k b : Nat} {n : FieldName} (hwf : c.wf = true) (hi : i.wf c p = true)
    (hn : n ∈ i.kind.fieldNames) (hl : n ≠ .literal) (hk : i.indexField n = some k)
    (hb : addressBits c n = some b)
    (hnarrow : ∀ s ∈ c.catalog, ∀ f ∈ s.fields, f.1 = n → narrowField c f = true) : k < 2 ^ b := by
  obtain ⟨s, hs, hkind, hfits⟩ := instrWf_iff.1 hi
  obtain ⟨-, hwfKind, -⟩ := shape_of_wf hwf hs
  obtain ⟨-, -, hused, -⟩ := wfKind_iff.1 hwfKind
  obtain ⟨f, hf, rfl⟩ := List.mem_map.1 (hused n (hkind ▸ hn))
  have hwidth : f.2 ≤ b := by simpa [narrowField, hb] using hnarrow s (List.mem_of_getElem? hs) f hf rfl
  obtain ⟨h, -⟩ | ⟨-, k', hk', hlt⟩ := fieldFits_iff.1 (hfits f hf)
  · exact absurd h hl
  · cases hk.symm.trans hk'
    exact hlt.trans_le (Nat.pow_le_pow_right (by decide) hwidth)

/-! ## The statements -/

/-- The word fetched from a sound machine has the width of a word (R32). -/
theorem length_fetch (h : s.wf = true) : (fetch s).length = s.cfg.commandSize := by
  obtain ⟨-, hcommands, -⟩ := (State.wf_iff s).1 h
  exact Memory.length_read hcommands

theorem cfg_wf_of_wf (h : s.wf = true) : s.cfg.wf = true := ((State.wf_iff s).1 h).1

/-- Settles O43: an index out of range would be the value of a field wider than its space. -/
theorem narrowFieldsNeverFault : Obligations.NarrowFieldsNeverFault := by
  intro s t hwf hnarrow hs h k sp idx hfault
  simp only [narrowIndices, List.all_eq_true, Bool.or_eq_true, beq_iff_eq] at hnarrow
  cases stepsTo_of_step hs h with
  | halt | fetchFault => cases hfault
  | ignore | commit => cases hs.symm.trans hfault
  | @fault op i f hd hf =>
    cases hfault
    obtain ⟨x, hx, hout, hrecord⟩ | ⟨-, -, -, hrecord⟩ := firstFault_cases hf <;> cases hrecord
    obtain ⟨n, hn, hidx, hspace⟩ := field_of_indexCheck hx
    obtain ⟨hl, ht, b, hb, hsize⟩ := spaceSize_of_fieldSpace (s := s) hspace
    have hi := instrWf_of_decode (cfg_wf_of_wf hwf) (length_fetch hwf) hd
    have hlt := indexField_lt_of_narrow (cfg_wf_of_wf hwf) hi hn hl hidx hb
      fun s' hs' f hf hfn => (hnarrow s' hs' f hf).resolve_left (hfn ▸ ht)
    omega

/-- From a slot of program memory the successor is at most `N`, if the target or return address it may jump to is. -/
theorem successor_le (hpc : s.pc < s.cfg.numSlots)
    (htarget : ∀ a, .commandAddress ∈ i.kind.fieldNames → i.indexField .commandAddress = some a → a ≤ s.cfg.numSlots)
    (hret : i = .ret → uint s.ra ≤ s.cfg.numSlots) : successor s i ≤ s.cfg.numSlots := by
  cases i with
  | jmpc a =>
    rw [successor]
    split
    · exact htarget a List.mem_cons_self rfl
    · exact hpc
  | jmp a => exact htarget a List.mem_cons_self rfl
  | ret => exact hret rfl
  | _ => exact hpc

/-- Settles O44: every way out of a slot leads to the next slot, to a target no wider than program memory, or to `ra`. -/
theorem narrowTargetsStayInRange : Obligations.NarrowTargetsStayInRange := by
  intro s t hwf hnarrow hs hpc hret h
  simp only [narrowTargets, List.all_eq_true, Bool.or_eq_true, bne_iff_ne] at hnarrow
  cases stepsTo_of_step hs h with
  | halt => exact ⟨hpc, nofun⟩
  | fetchFault hpast => exact absurd hpast hpc.not_gt
  | ignore hlt => exact ⟨hlt, fun k hk => nomatch hs.symm.trans hk⟩
  | fault hd hf =>
    refine ⟨hpc, fun k hk => ?_⟩
    cases hk
    exact firstFault_ne_fetchOutOfRange hf
  | @commit op i hlt hd hf =>
    have hi := instrWf_of_decode (cfg_wf_of_wf hwf) (length_fetch hwf) hd
    refine ⟨successor_le hlt (fun a hn ha => ?_) fun hri => hret op (hri ▸ hd), fun k hk => nomatch hs.symm.trans hk⟩
    exact (indexField_lt_of_narrow (cfg_wf_of_wf hwf) hi hn nofun ha rfl
      fun s' hs' f hf hfn => (hnarrow s' hs' f hf).resolve_left fun hne => hne hfn).le

end Sys2Proof.Machine
end

section
/-! The invariant (spec/10_state.md R32, R33, spec/60_exceptions.md R113) through every step, and the run of a machine that meets
it (spec/40_execution_cycle.md R88). -/

namespace Sys2Proof.Machine

variable {s t : State} {i : Instr}

/-! ## The invariant -/

/-- The vectors an instruction writes. -/
def Writes.values (w : Writes) : List Bits :=
  w.reg.toList.map (·.2) ++ w.cell.toList.map (·.2) ++ (match w.stack with | .push v => [v] | _ => []) ++ w.ra.toList

/-- A literal decoded under a well-formed configuration has `L` digits (R10). -/
theorem length_literalField {c : Config} {p : Nat} {v : Bits} (hwf : c.wf = true) (hi : i.wf c p = true)
    (hv : i.literalField = some v) : v.length = c.literalSize := by
  obtain ⟨s, hs, hkind, hfits⟩ := instrWf_iff.1 hi
  obtain ⟨-, hwfKind, hlit⟩ := shape_of_wf hwf hs
  obtain ⟨-, -, hused, -⟩ := wfKind_iff.1 hwfKind
  have hn : FieldName.literal ∈ i.kind.fieldNames := by
    cases i with
    | stl a v => exact List.mem_cons_of_mem _ List.mem_cons_self
    | ldra v => exact List.mem_cons_self
    | _ => cases hv
  obtain ⟨f, hf, hfn⟩ := List.mem_map.1 (hused _ (hkind ▸ hn))
  obtain ⟨-, v', hv', hlen⟩ | ⟨h, -⟩ := fieldFits_iff.1 (hfits f hf)
  · cases hv.symm.trans hv'
    rw [hlen, hlit f hf hfn]
  · exact absurd hfn h

theorem length_top (h : ∀ v ∈ s.stack, v.length = s.cfg.literalSize) : s.top.length = s.cfg.literalSize := by
  rw [State.top, List.getLastD_eq_getLast?]
  cases hlast : s.stack.getLast? with
  | none => exact length_zeros _
  | some v => exact h v (List.mem_of_getLast? hlast)

/-- R32: on a sound machine every instruction writes vectors of `L` digits. -/
theorem length_of_mem_writes (hwf : s.wf = true) (hlit : ∀ v, i.literalField = some v → v.length = s.cfg.literalSize) :
    ∀ v ∈ (writes s i).values, v.length = s.cfg.literalSize := by
  obtain ⟨-, -, hmem, -, -, hstack, hra, -⟩ := (State.wf_iff s).1 hwf
  cases i with
  | nop | jmpc _ | jmp _ | ret => exact fun v hv => nomatch hv
  | stl a v => exact List.forall_mem_singleton.2 (hlit v rfl)
  | ldra v => exact List.forall_mem_singleton.2 (hlit v rfl)
  | ld a r => exact List.forall_mem_singleton.2 (Memory.length_read hmem)
  | mul a b d => exact List.forall_mem_singleton.2 (length_bitsN _ _)
  | decr r => exact List.forall_mem_singleton.2 (length_bitsN _ _)
  | st a r => exact List.forall_mem_singleton.2 (State.length_reg hwf r)
  | push r => exact List.forall_mem_singleton.2 (State.length_reg hwf r)
  | mov a d => exact List.forall_mem_singleton.2 (State.length_reg hwf a)
  | pop r => exact List.forall_mem_singleton.2 (length_top hstack)
  | popra => exact List.forall_mem_singleton.2 (length_top hstack)
  | pushra => exact List.forall_mem_singleton.2 hra

/-- The cell an instruction writes is one whose index it has checked (R47). -/
theorem cell_checked {a : Nat} (h : (writes s i).cell.map (·.1) = some a) : (.memory, a) ∈ indexChecks i := by
  cases i with
  | stl b v =>
    cases h
    exact List.mem_cons_self
  | st b r =>
    cases h
    exact List.mem_cons_of_mem _ List.mem_cons_self
  | _ => cases h

/-- Writes of `L` digits each, to a cell that exists if to one, keep the invariant of a running machine. -/
theorem commit_wf {w : Writes} {n : Nat} (h : s.wf = true) (hs : s.status = .running)
    (hlen : ∀ v ∈ w.values, v.length = s.cfg.literalSize)
    (hcell : ∀ a, w.cell.map (·.1) = some a → a < s.cfg.numCells) : (s.commit w n).wf = true := by
  obtain ⟨hcfg, hcommands, hmem, hnum, hregs, hstack, hra, hcursor, -⟩ := (State.wf_iff s).1 h
  refine (State.wf_iff _).2 ⟨hcfg, hcommands, ?_, length_commit_registers.trans hnum, ?_, ?_, ?_, hcursor, ?_⟩
  · cases hw : w.cell with
    | none => rwa [commit_memory hw]
    | some x =>
      have hx : x.2.length = s.cfg.literalSize := hlen _ (by simp [Writes.values, hw])
      simp only [State.commit, Writes.memory, hw]
      exact Memory.wf_write hmem (hcell x.1 (by rw [hw, Option.map_some])) hx
  · cases hw : w.reg with
    | none => rwa [commit_registers hw]
    | some x =>
      have hx : x.2.length = s.cfg.literalSize := hlen _ (by simp [Writes.values, hw])
      simp only [State.commit, Writes.registers, hw]
      intro v hv
      obtain hv | rfl := List.mem_or_eq_of_mem_set hv
      · exact hregs v hv
      · exact hx
  · cases hw : w.stack with
    | keep => rwa [commit_stack hw]
    | pop =>
      simp only [State.commit, Writes.stackAfter, hw]
      exact fun v hv => hstack v (List.mem_of_mem_dropLast hv)
    | push u =>
      have hu : u.length = s.cfg.literalSize := hlen _ (by simp [Writes.values, hw])
      simp only [State.commit, Writes.stackAfter, hw]
      intro v hv
      obtain hv | hv := List.mem_append.1 hv
      · exact hstack v hv
      · rwa [List.mem_singleton.1 hv]
  · cases hw : w.ra with
    | none => rwa [commit_ra hw]
    | some u =>
      simp only [State.commit, hw, Option.getD_some]
      exact hlen _ (by simp [Writes.values, hw])
  · simp [State.statusOk, State.commit, hs]

/-- A change of the pointer and the status alone keeps the invariant if the new status is truthful. -/
theorem wf_of_control {n : Nat} {st : Status} (h : s.wf = true)
    (hst : State.statusOk { s with pc := n, status := st } = true) : State.wf { s with pc := n, status := st } = true := by
  obtain ⟨hcfg, hcommands, hmem, hnum, hregs, hstack, hra, hcursor, -⟩ := (State.wf_iff s).1 h
  exact (State.wf_iff _).2 ⟨hcfg, hcommands, hmem, hnum, hregs, hstack, hra, hcursor, hst⟩

/-- Settles O48: the halt and the faults change the status truthfully, and the writes have the width and place they need. -/
theorem stepKeepsTheInvariant : Obligations.StepKeepsTheInvariant := by
  intro s t hwf h
  obtain ⟨hcfg, ⟨hs, -⟩ | ⟨-, rfl⟩⟩ := step_next h
  · cases stepsTo_of_step hs h with
    | halt => exact wf_of_control hwf rfl
    | fetchFault hpc => exact wf_of_control hwf (by simp [State.statusOk, hpc])
    | ignore => exact wf_of_control hwf (by simp [State.statusOk, hs])
    | fault hd hf => exact wf_of_control hwf (statusOk_raise_of_firstFault hf)
    | @commit op i hpc hd hf =>
      have hi := instrWf_of_decode hcfg (length_fetch hwf) hd
      exact commit_wf hwf hs (length_of_mem_writes hwf fun v => length_literalField hcfg hi)
        fun a ha => index_lt_of_no_fault hf _ (cell_checked ha)
  · exact hwf

/-! ## The run (R88) -/

theorem runFor_of_stopped (hs : s.status ≠ .running) (n : Nat) : runFor n s = .next s := by
  cases n with
  | zero => rfl
  | succ n => exact if_neg hs

theorem runFor_succ (hs : s.status = .running) (h : step s = .next t) (n : Nat) : runFor (n + 1) s = runFor n t := by
  simp only [runFor, hs, if_true, h]

/-- Settles O49: by induction on the number of steps; a machine that stopped stays where it stopped. -/
theorem runHasOneEnd : Obligations.RunHasOneEnd := by
  intro n
  induction n with
  | zero =>
    exact fun s hwf hs => ⟨s, rfl, hwf, rfl, rfl, rfl, fun hhalted => (nomatch hs.symm.trans hhalted),
      fun hstopped => absurd hs hstopped⟩
  | succ n ih =>
    intro s hwf hs
    obtain ⟨u, hu⟩ := exists_step (cfg_wf_of_wf hwf) hs
    have huwf := stepKeepsTheInvariant s u hwf hu
    obtain ⟨hcommands, -, hcursor, hcfg⟩ := stepNeverWritesProgramMemory s u hu
    have later {t : State} (hend : ∀ m, n ≤ m → runFor m u = .next t) (m : Nat) (hm : n + 1 ≤ m) :
        runFor m s = .next t := by
      obtain ⟨k, rfl⟩ := Nat.exists_eq_add_of_le' hm
      exact (runFor_succ hs hu (k + n)).trans (hend (k + n) (Nat.le_add_left n k))
    by_cases hrun : u.status = .running
    · obtain ⟨t, ht, htwf, hcommands', hcursor', hcfg', hhalted, hend⟩ := ih u huwf hrun
      exact ⟨t, (runFor_succ hs hu n).trans ht, htwf, hcommands'.trans hcommands, hcursor'.trans hcursor,
        hcfg'.trans hcfg, fun h => hcfg ▸ hhalted h, fun hstopped => later (hend hstopped)⟩
    · refine ⟨u, (runFor_succ hs hu n).trans (runFor_of_stopped hrun n), huwf, hcommands, hcursor, hcfg, fun h => ?_,
        fun _ => later fun m _ => runFor_of_stopped hrun m⟩
      obtain ⟨hpc, rfl⟩ := runEndsExactlyAtTheSlotCount.2 s u hs hu h
      exact hpc

end Sys2Proof.Machine
end

section
/-! The host operations and the invariant (spec/70_reset_and_hazards.md R124 to R129): the zeroed data of `init` and `clear`, the
loading of words, and what each operation leaves. -/

namespace Sys2Proof.Machine

variable {s t : State} {words : List Bits} {op : HostOp}

/-! ## Zeroed data (R35, R124, R125) -/

/-- Data memory, registers, stack and `ra` as `init` and `clear` leave them. -/
structure State.DataZeroed (s : State) : Prop where
  memory : s.memory = []
  registers : s.registers = List.replicate s.cfg.numRegs (zeros s.cfg.literalSize)
  stack : s.stack = []
  ra : s.ra = zeros s.cfg.literalSize

theorem dataZeroed_init (c : Config) : (State.init c).DataZeroed := ⟨rfl, rfl, rfl, rfl⟩

theorem dataZeroed_clear (s : State) : (hostClear s).DataZeroed := ⟨rfl, rfl, rfl, rfl⟩

theorem State.DataZeroed.cell_eq (h : s.DataZeroed) (a : Nat) : s.cell a = zeros s.cfg.literalSize := by
  rw [State.cell, h.memory, Memory.read_nil]

theorem State.DataZeroed.length_registers (h : s.DataZeroed) : s.registers.length = s.cfg.numRegs := by
  rw [h.registers, List.length_replicate]

theorem State.DataZeroed.reg_eq (h : s.DataZeroed) (k : Nat) : s.reg k = zeros s.cfg.literalSize := by
  rw [State.reg, h.registers, List.getD_eq_getElem?_getD, List.getElem?_replicate]
  split <;> rfl

theorem State.DataZeroed.wf (h : s.DataZeroed) (hcfg : s.cfg.wf = true)
    (hcommands : Memory.wf s.cfg.commandSize s.cfg.numSlots s.commands = true) (hcursor : s.cursorOk = true)
    (hstatus : s.statusOk = true) : s.wf = true := by
  refine (State.wf_iff s).2 ⟨hcfg, hcommands, ?_, h.length_registers, ?_, ?_, ?_, hcursor, hstatus⟩
  · rw [h.memory, Memory.wf_nil]
  · rw [h.registers]
    exact fun v hv => List.eq_of_mem_replicate hv ▸ length_zeros _
  · rw [h.stack]
    exact fun v hv => nomatch hv
  · rw [h.ra, length_zeros]

theorem init_wf {c : Config} (hc : c.wf = true) : (State.init c).wf = true :=
  (dataZeroed_init c).wf hc Memory.wf_nil (by simp [State.cursorOk]) rfl

/-- R113: a fault status stays truthful where the stack can only have become empty. -/
theorem State.statusOk_of_stack (hst : t.status = s.status) (hpc : t.pc = s.pc) (hc : t.cfg = s.cfg)
    (hstack : s.stack = [] → t.stack = []) (h : s.statusOk = true) : t.statusOk = true := by
  rw [State.statusOk, hst, hpc]
  cases hs : s.status with
  | running | halted => rfl
  | fault f =>
    rw [State.statusOk, hs] at h
    cases f with
    | emptyStack k =>
      simp only [Bool.and_eq_true, List.isEmpty_iff] at h ⊢
      exact h.imp_right hstack
    | indexOutOfRange k sp idx => simpa only [State.spaceSize_congr hc] using h
    | fetchOutOfRange k => simpa only [hc] using h

theorem clear_wf (h : s.wf = true) : (hostClear s).wf = true := by
  obtain ⟨hcfg, hcommands, -, -, -, -, -, hcursor, hstatus⟩ := (State.wf_iff s).1 h
  exact (dataZeroed_clear s).wf hcfg hcommands hcursor (State.statusOk_of_stack (s := s) rfl rfl rfl (fun _ => rfl) hstatus)

/-! ## Program memory and the cursor (R33, R126, R127) -/

/-- Other contents of program memory and another cursor keep the invariant if they meet their part of it. -/
theorem wf_of_program {m : Memory} {k : Nat} (h : s.wf = true) (hm : Memory.wf s.cfg.commandSize s.cfg.numSlots m = true)
    (hk : State.cursorOk { s with commands := m, cursor := k } = true) :
    State.wf { s with commands := m, cursor := k } = true := by
  obtain ⟨hcfg, -, hmem, hnum, hregs, hstack, hra, -, hstatus⟩ := (State.wf_iff s).1 h
  exact (State.wf_iff _).2 ⟨hcfg, hm, hmem, hnum, hregs, hstack, hra, hk, hstatus⟩

/-- R33: in canonical form the slots that are listed are those that do not read as zeros. -/
theorem cursorOk_of_slots (hm : Memory.wf s.cfg.commandSize s.cfg.numSlots s.commands = true)
    (hn : s.cursor ≤ s.cfg.numSlots) (hzero : ∀ a, s.cursor ≤ a → s.slot a = zeros s.cfg.commandSize) :
    s.cursorOk = true := by
  obtain ⟨hrising, hentries⟩ := Memory.wf_iff.1 hm
  simp only [State.cursorOk, Bool.and_eq_true, decide_eq_true_eq, List.all_eq_true]
  refine ⟨hn, fun e he => ?_⟩
  by_contra hle
  have hread : s.slot e.1 = e.2 := Memory.read_of_mem hrising he
  have hlisted := hentries e he
  simp only [Memory.entryOk, Bool.and_eq_true, bne_iff_ne] at hlisted
  exact hlisted.2 (hread.symm.trans (hzero e.1 (not_lt.1 hle)))

theorem cursor_le (h : s.wf = true) : s.cursor ≤ s.cfg.numSlots := by
  obtain ⟨-, -, -, -, -, -, -, hcursor, -⟩ := (State.wf_iff s).1 h
  simp only [State.cursorOk, Bool.and_eq_true, decide_eq_true_eq] at hcursor
  exact hcursor.1

/-- R127: `load_prog` of words that fit keeps the invariant. -/
theorem hostLoadProg_fit_wf (h : s.wf = true) (hn : words.length ≤ s.cfg.numSlots - s.cursor)
    (hw : ∀ v ∈ words, v.length = s.cfg.commandSize) : ∃ t, hostLoadProg words s = .done t ∧ t.wf = true := by
  obtain ⟨-, hcommands, -⟩ := (State.wf_iff s).1 h
  have hle := cursor_le h
  obtain ⟨m, hload, -, hframe, hm⟩ :=
    loadWords_fit (n := s.cfg.numSlots) (base := s.cursor) (k := 0) (m := s.commands) words hw
  have hmwf := hm hcommands (by omega)
  refine ⟨{ s with commands := m, cursor := s.cursor + words.length }, ?_, wf_of_program h hmwf ?_⟩
  · rw [hostLoadProg, if_neg hn.not_gt, hload]
  · refine cursorOk_of_slots hmwf (show s.cursor + words.length ≤ s.cfg.numSlots by omega) fun a ha => ?_
    exact (hframe a (.inr ha)).trans (State.slot_of_cursor_le h ((Nat.le_add_right _ _).trans ha))

/-- Words not all of width `w` have a first one of another width. -/
theorem exists_first_misfit {w : Nat} (h : ¬ ∀ v ∈ words, v.length = w) :
    ∃ (k : Nat) (bad : Bits), words[k]? = some bad ∧ bad.length ≠ w ∧ ∀ v ∈ words.take k, v.length = w := by
  induction words with
  | nil => exact absurd (fun v hv => nomatch hv) h
  | cons v rest ih =>
    by_cases hv : v.length = w
    · obtain ⟨k, bad, hk, hbad, hpre⟩ := ih fun hrest => h (List.forall_mem_cons.2 ⟨hv, hrest⟩)
      exact ⟨k + 1, bad, hk, hbad, List.forall_mem_cons.2 ⟨hv, hpre⟩⟩
    · exact ⟨0, v, rfl, hv, fun u hu => nomatch hu⟩

/-! ## Every host operation -/

/-- The answer of an operation on the state `s`: a state that meets the invariant, or a failure that left `s`. -/
def HostResult.Sound (s : State) : HostResult → Prop
  | .done t => t.wf = true
  | .failed _ t => t = s
  | .refused _ => True

theorem hostInit_sound (c : Config) (s : State) : (hostInit c).Sound s := by
  obtain ⟨hc, h⟩ | ⟨-, h⟩ := hostInit_cases c <;> rw [h]
  · exact init_wf hc
  · trivial

/-- R121, R127: `load_prog` fails for capacity or for a width, and on a sound state leaves it either way. -/
theorem hostLoadProg_sound (h : s.wf = true) (words : List Bits) : (hostLoadProg words s).Sound s := by
  by_cases hn : words.length ≤ s.cfg.numSlots - s.cursor
  · by_cases hw : ∀ v ∈ words, v.length = s.cfg.commandSize
    · obtain ⟨t, ht, htwf⟩ := hostLoadProg_fit_wf h hn hw
      rw [ht]
      exact htwf
    · obtain ⟨k, bad, hk, hbad, hpre⟩ := exists_first_misfit hw
      rw [hostLoadProg_misfit_of_wf hn hk hbad hpre h]
      rfl
  · rw [hostLoadProg_capacity (not_le.1 hn)]
    rfl

theorem hostAssemble_sound (h : s.wf = true) (lines : List Text) : (hostAssemble lines s).Sound s := by
  cases hasm : assemble s.cfg s.cursor lines with
  | ok words =>
    rw [hostAssemble_ok hasm]
    exact hostLoadProg_sound h words
  | error e =>
    rw [hostAssemble_error hasm]
    rfl

theorem hostIdle_sound (h : s.wf = true) (op : HostOp) : (hostIdle op s).Sound s := by
  cases op with
  | init cw lw cs ms rf => exact hostInit_sound _ s
  | clear => exact clear_wf h
  | clearProg => exact wf_of_program (k := 0) h Memory.wf_nil (by simp [State.cursorOk])
  | loadProg words => exact hostLoadProg_sound h words
  | assemble lines => exact hostAssemble_sound h lines
  | run => exact wf_of_control (n := 0) (st := .running) h rfl
  | readOut => exact h

/-- Settles O57: during a run nothing is answered, and between runs each operation answers soundly. -/
theorem hostOperationsKeepTheInvariant : Obligations.HostOperationsKeepTheInvariant := by
  intro op s h
  have hsound : (hostOp op (.ready s)).Sound s := by
    by_cases hs : s.status = .running
    · rw [hostOp_running hs]
      trivial
    · rw [hostOp_idle hs]
      exact hostIdle_sound h op
  refine ⟨fun t ht => ?_, fun e t ht => ?_⟩
  · rwa [ht] at hsound
  · rwa [ht] at hsound

/-! ## Reset, `init`, `clear` and the run entry -/

/-- Settles O50: `init` zeroes everything, and the configuration `REF` is well formed. -/
theorem resetMeetsTheInvariant : Obligations.ResetMeetsTheInvariant :=
  ⟨init_wf (by decide), fun _ => init_wf⟩

/-- Settles O51: an empty memory reads as zeros, and the data state is zeroed. -/
theorem resetValues : Obligations.ResetValues := by
  refine ⟨rfl, fun c => ?_⟩
  have hzero := dataZeroed_init c
  exact ⟨fun _ => Memory.read_nil, hzero.cell_eq, hzero.length_registers, hzero.reg_eq, rfl, rfl, rfl, rfl, rfl⟩

theorem hostInit_leaves {c : Config} (h : (hostInit c).Leaves t) : t = State.init c := by
  obtain ⟨-, hc⟩ | ⟨-, hc⟩ := hostInit_cases c
  · rw [hc, HostResult.done_leaves] at h
    exact h.symm
  · rw [hc] at h
    exact absurd h HostResult.not_refused_leaves

theorem hostOp_init {m : Hosted} (hm : ∀ s, m = .ready s → s.status ≠ .running) (cw lw cs ms rf : Nat) :
    hostOp (.init cw lw cs ms rf) m = hostInit (m.decoder.withSizes cw lw cs ms rf) := by
  cases m with
  | blank d => rfl
  | ready s => exact hostOp_idle (hm s rfl)

theorem hostOp_blank (d : DecoderConfig) (hop : ∀ cw lw cs ms rf, op ≠ .init cw lw cs ms rf) :
    hostOp op (.blank d) = .refused .beforeInit := by
  cases op with
  | init cw lw cs ms rf => exact absurd rfl (hop cw lw cs ms rf)
  | _ => rfl

/-- R13, C6: an `init` answers a state of the machine's own decoder; any other operation leaves the configuration. -/
theorem hostOp_cfg {m : Hosted} (h : (hostOp op m).Leaves t) :
    (∃ cw lw cs ms rf, op = .init cw lw cs ms rf ∧ t.cfg = m.decoder.withSizes cw lw cs ms rf)
      ∨ ∃ s, m = .ready s ∧ t.cfg = s.cfg := by
  by_cases hop : ∃ cw lw cs ms rf, op = .init cw lw cs ms rf
  · obtain ⟨cw, lw, cs, ms, rf, rfl⟩ := hop
    have hm (s : State) (hs : m = .ready s) : s.status ≠ .running := fun hrun => by
      rw [hs, hostOp_running hrun] at h
      exact HostResult.not_refused_leaves h
    rw [hostOp_init hm] at h
    exact .inl ⟨cw, lw, cs, ms, rf, rfl, by rw [hostInit_leaves h, State.init_cfg]⟩
  · cases m with
    | blank d =>
      rw [hostOp_blank d fun cw lw cs ms rf he => hop ⟨cw, lw, cs, ms, rf, he⟩] at h
      exact absurd h HostResult.not_refused_leaves
    | ready s => exact .inr ⟨s, rfl, (hostIdle_cfg (hostIdle_leaves_of_hostOp h)).resolve_right hop⟩

/-- Settles O52: `init` is the reset under the machine's own decoder, and the rest follows from when an operation is admitted. -/
theorem hostActsBetweenRunsAfterInit : Obligations.HostActsBetweenRunsAfterInit := by
  refine ⟨fun m cw lw cs ms rf hm => ⟨fun hwf => ?_, fun hwf => ?_⟩, fun d op => hostOp_blank d,
    fun op s => hostOp_running, fun s => hostOp_idle, fun op m t h => ?_⟩
  · simp [hostOp_init hm, hostInit, hwf]
  · simp [hostOp_init hm, hostInit, hwf]
  · obtain ⟨cw, lw, cs, ms, rf, rfl, hcfg⟩ | ⟨s, rfl, hcfg⟩ := hostOp_cfg h
    · rw [hcfg]
      exact ⟨rfl, rfl, fun _ _ => .inr ⟨cw, lw, cs, ms, rf, rfl⟩⟩
    · rw [hcfg]
      refine ⟨rfl, rfl, fun s' hs' => .inl ?_⟩
      cases hs'
      rfl

/-- Settles O53: `clear` zeroes the data state of whatever state it is given, a cleared one included. -/
theorem clearZeroesDataState : Obligations.ClearZeroesDataState := by
  intro s hs
  have hzero := dataZeroed_clear s
  exact ⟨hostClear s, hostOp_idle hs, hzero.cell_eq, hzero.length_registers, hzero.reg_eq, rfl, rfl, rfl, rfl, rfl, rfl,
    rfl, hostOp_idle (s := hostClear s) hs⟩

/-- Settles O56: between runs the run entry is admitted. -/
theorem runEntryStartsAtSlotZero : Obligations.RunEntryStartsAtSlotZero := fun _ => hostOp_idle

end Sys2Proof.Machine
end

section
/-! MUL and the laws of the arithmetic (spec/42_register_ops.md R94, R95, R97), and with the last of its words the whole
catalog `REF` by bit numbers (spec/30_encoding.md R70). -/

namespace Sys2Proof

/-- MUL: the operands in bits 11:10 and 9:8, the destination in bits 7:6. -/
theorem ref_mul_fields (w : Nat) :
    Instr.ofFields (cutFields (bitsN 16 w)
        (fieldSlices 4 [(.firstOperand, 2), (.secondOperand, 2), (.registerAddress, 2)])) .mul
      = some (.mul (w / 1024 % 4) (w / 256 % 4) (w / 64 % 4)) := by
  simp [Instr.ofFields, indexValue, fieldVector, cutFields, fieldSlices, slice_bitsN, uint_bitsN_mod]

end Sys2Proof

namespace Sys2Proof.Machine

variable {L : Nat} {u v : Bits}

/-! ## The product (R94) -/

theorem length_product (L : Nat) (u v : Bits) : (product L u v).length = L := length_bitsN _ _

theorem uint_product (L : Nat) (u v : Bits) : uint (product L u v) = uint u * uint v % 2 ^ L :=
  uint_bitsN (Nat.mod_lt _ (Nat.two_pow_pos L))

theorem product_comm (L : Nat) (u v : Bits) : product L u v = product L v u := by
  rw [product, product, Nat.mul_comm]

theorem product_of_uint_eq_zero (L : Nat) (u : Bits) (hv : uint v = 0) : product L u v = zeros L := by
  rw [product, hv, Nat.mul_zero, Nat.zero_mod, bitsN_zero]

theorem product_of_uint_eq_one (hu : u.length = L) (hv : uint v = 1) : product L u v = u := by
  subst hu
  rw [product, hv, Nat.mul_one, bitsN_mod, bitsN_uint]

/-- D8: the product is exact where it fits in `L` digits and nowhere else. -/
theorem uint_product_eq_iff : uint (product L u v) = uint u * uint v ↔ uint u * uint v < 2 ^ L := by
  rw [uint_product, Nat.mod_eq_iff_lt (Nat.two_pow_pos L).ne']

/-! ## One less (R95) -/

theorem uint_decrement_of_pos (hu : u.length = L) (h : 1 ≤ uint u) : uint (decrement L u) = uint u - 1 := by
  have hlt : uint u < 2 ^ L := hu ▸ uint_lt u
  rw [uint_decrement, show uint u + 2 ^ L - 1 = uint u - 1 + 2 ^ L by omega, Nat.add_mod_right,
    Nat.mod_eq_of_lt (by omega)]

theorem length_iterate_decrement (hu : u.length = L) (n : Nat) : ((decrement L)^[n] u).length = L := by
  cases n with
  | zero => exact hu
  | succ n =>
    rw [Function.iterate_succ_apply']
    exact length_decrement L _

/-- R95: subtracting one `n` times is adding `n` times `2^L - 1`, modulo `2^L`. -/
theorem uint_iterate_decrement (hu : u.length = L) (n : Nat) :
    uint ((decrement L)^[n] u) = (uint u + n * (2 ^ L - 1)) % 2 ^ L := by
  have hpos := Nat.two_pow_pos L
  induction n with
  | zero => rw [Function.iterate_zero_apply, Nat.zero_mul, Nat.add_zero, Nat.mod_eq_of_lt (hu ▸ uint_lt u)]
  | succ n ih =>
    rw [Function.iterate_succ_apply', uint_decrement, ih, Nat.add_sub_assoc hpos, Nat.mod_add_mod, Nat.succ_mul,
      Nat.add_assoc]

/-- R97: after `2^L` times every vector is back. -/
theorem iterate_decrement_eq_self (hu : u.length = L) : (decrement L)^[2 ^ L] u = u := by
  refine uint_inj ((length_iterate_decrement hu _).trans hu.symm) ?_
  rw [uint_iterate_decrement hu, Nat.add_mul_mod_self_left, Nat.mod_eq_of_lt (hu ▸ uint_lt u)]

/-- Settles O47: each law by the value of the operation. -/
theorem arithmeticLaws : Obligations.ArithmeticLaws := by
  intro L u v hu _
  refine ⟨product_comm L u v, product_of_uint_eq_zero L u, product_of_uint_eq_one hu, uint_product_eq_iff,
    uint_decrement_of_pos hu, fun h => ?_, iterate_decrement_eq_self hu⟩
  rw [decrement_of_uint_eq_zero L h, uint_replicate_true]

/-- Settles O21: the three indices are checked in order; past them the destination holds the product. -/
theorem mulWritesTheProduct : Obligations.MulWritesTheProduct := by
  refine ⟨fun a b d s => ⟨fun ha hb hd hlen => ?_, fun ha => ?_, fun ha hb => ?_, fun ha hb hd => ?_⟩,
    fun w hw h4 => ?_⟩
  · obtain ⟨hwritten, hframe⟩ :=
      setReg_advance_effect s (product s.cfg.literalSize (s.reg a) (s.reg b)) (hd.trans_eq hlen.symm)
    refine ⟨_, (execMul_eq a b d s).trans (by rw [if_pos ha, if_pos hb, if_pos hd]), ?_, ?_, hframe⟩
    · rw [hwritten, uint_product]
    · rw [hwritten, length_product]
  · exact (execMul_eq a b d s).trans (by rw [if_neg ha.not_gt]; rfl)
  · exact (execMul_eq a b d s).trans (by rw [if_pos ha, if_neg hb.not_gt]; rfl)
  · exact (execMul_eq a b d s).trans (by rw [if_pos ha, if_pos hb, if_neg hd.not_gt]; rfl)
  · exact decodeTableWord_refWord hw h4 rfl (ref_mul_fields w)

/-! ## The words of the table -/

/-- R70: opcode 15 is beyond the fifteen entries of `REF`. -/
theorem decodeTableWord_ref_unrecognised {w : Nat} (hw : w < 65536) (h15 : w / 4096 = 15) :
    decodeTableWord 16 w = none := by
  have hd : decode refConfig (bitsN 16 w) = .unrecognised 15 :=
    decode_of_no_shape rfl ((opcode_refWord hw).trans h15)
  simp only [decodeTableWord, show tableConfig 16 = some refConfig from rfl, hd]

/-- Settles O2: by the opcode value, bits 15:12 of the word, each row as its instruction's own statement has it. -/
theorem refWordsDecodeByBitNumbers : Obligations.RefWordsDecodeByBitNumbers := by
  intro w hw
  have hlt : w / 4096 < 16 := by omega
  generalize hq : w / 4096 = q at hlt
  match q, hlt with
  | 0, _ => exact nopOnlyAdvances.2.1 w hw hq
  | 1, _ => exact stlStoresTheLiteral.2 w hw hq
  | 2, _ => exact ldCopiesTheCell.2 w hw hq
  | 3, _ => exact jmpcJumpsAboveOne.2 w hw hq
  | 4, _ => exact mulWritesTheProduct.2 w hw hq
  | 5, _ => exact stCopiesTheRegister.2 w hw hq
  | 6, _ => exact decrSubtractsOne.2.1 w hw hq
  | 7, _ => exact jmpSetsThePointer.2.1 w hw hq
  | 8, _ => exact pushAppendsTheRegister.2 w hw hq
  | 9, _ => exact popTakesTheTop.2 w hw hq
  | 10, _ => exact ldraLoadsTheLiteral.2 w hw hq
  | 11, _ => exact retJumpsToTheReturnAddress.2 w hw hq
  | 12, _ => exact pushraAppendsTheReturnAddress.2 w hw hq
  | 13, _ => exact popraLoadsTheTop.2 w hw hq
  | 14, _ => exact movCopiesTheRegister.2 w hw hq
  | 15, _ => exact decodeTableWord_ref_unrecognised hw hq
  | q + 16, hlt => exact absurd hlt (Nat.le_add_left 16 q).not_gt

/-- Settles O1: nine given words, evaluated. -/
theorem decodesTheSpecsWords : Obligations.DecodesTheSpecsWords := by
  unfold Obligations.DecodesTheSpecsWords
  decide

end Sys2Proof.Machine
end

section
/-! The assembler (spec/30_encoding.md R74 to R81): what pass 1 records, what a mnemonic and an argument resolve to, and the words
of pass 2. -/

namespace Sys2Proof.Machine

variable {c : Config} {table known : LabelTable} {k : Nat} {line : Text} {rest lines : List Text} {l : Text}

/-! ## Pass 1 (R75) -/

/-- R75: the first line of a source that passes pass 1 parses, and its label, if it has one, is new and recorded. -/
theorem collectLabels_cons (h : collectLabels k (line :: rest) known = .ok table) :
    ∃ pl, parseLine line = some pl ∧
      ((pl.label = none ∧ collectLabels (k + 1) rest known = .ok table)
        ∨ ∃ l, pl.label = some l ∧ known.lookup l = none
          ∧ collectLabels (k + 1) rest (known ++ [(l, k)]) = .ok table) := by
  rw [collectLabels] at h
  split at h
  · cases h
  · rename_i pl hpl
    refine ⟨pl, hpl, ?_⟩
    split at h
    · rename_i hlabel
      exact .inl ⟨hlabel, h⟩
    · rename_i l hlabel
      split at h
      · cases h
      · rename_i hnew
        exact .inr ⟨l, hlabel, Option.not_isSome_iff_eq_none.1 hnew, h⟩

/-- A label already recorded keeps its index. -/
theorem lookup_collectLabels_of_known {v : Nat} (h : collectLabels k lines known = .ok table)
    (hl : known.lookup l = some v) : table.lookup l = some v := by
  induction lines generalizing k known with
  | nil =>
    cases h
    exact hl
  | cons line rest ih =>
    obtain ⟨pl, -, ⟨-, h⟩ | ⟨l', -, -, h⟩⟩ := collectLabels_cons h
    · exact ih h hl
    · exact ih h (by rw [List.lookup_append, hl, Option.some_or])

/-- R75: the label of the line at position `n` is recorded with the index `k + n`. -/
theorem lookup_collectLabels {n : Nat} {pl : ParsedLine} (h : collectLabels k lines known = .ok table)
    (hline : lines[n]? = some line) (hpl : parseLine line = some pl) (hlabel : pl.label = some l) :
    table.lookup l = some (k + n) := by
  induction lines generalizing k known n with
  | nil => cases hline
  | cons first rest ih =>
    obtain ⟨pl', hpl', hrest⟩ := collectLabels_cons h
    cases n with
    | zero =>
      cases hline
      cases hpl.symm.trans hpl'
      obtain ⟨hnone, -⟩ | ⟨l', hl', hnew, h⟩ := hrest
      · cases hlabel.symm.trans hnone
      · cases hlabel.symm.trans hl'
        exact lookup_collectLabels_of_known h (by simp [List.lookup_append, hnew])
    | succ n =>
      rw [← Nat.add_assoc, Nat.add_right_comm]
      obtain ⟨-, h⟩ | ⟨l', -, -, h⟩ := hrest
      · exact ih h hline
      · exact ih h hline

/-- R77: an argument that is not all digits is looked up. -/
theorem argValue_of_label {v : Nat} (hdigit : l.all isDigit = false) (hl : table.lookup l = some v) :
    argValue table l = v := by
  simp [argValue, hdigit, hl]

/-- Settles O60: the first pass records every label with its line's absolute index and never records it again. -/
theorem labelsResolveToAbsoluteIndices : Obligations.LabelsResolveToAbsoluteIndices := by
  intro start lines table h n line pl l hline hpl hlabel
  have hl := lookup_collectLabels h hline hpl hlabel
  exact ⟨hl, fun hdigit => argValue_of_label hdigit hl⟩

/-! ## Pass 2 (R76, R77, R81) -/

/-- R81: the mnemonic is found at its lowest position. -/
theorem findMnemonic_some {name : Text} {shapes : List Shape} {p : Nat} (h : findMnemonic name shapes = some p) :
    (∀ s, shapes[p]? = some s → s.name = name) ∧ ∀ q r, q < p → shapes[q]? = some r → r.name ≠ name := by
  induction shapes generalizing p with
  | nil => cases h
  | cons first rest ih =>
    rw [findMnemonic] at h
    split at h
    · rename_i hname
      cases h
      exact ⟨fun s hs => by cases hs; exact hname, fun q r hq => absurd hq q.not_lt_zero⟩
    · rename_i hname
      obtain ⟨p', hp', rfl⟩ := Option.map_eq_some_iff.1 h
      obtain ⟨hfound, hbefore⟩ := ih hp'
      refine ⟨fun s hs => hfound s hs, fun q r hq hr => ?_⟩
      cases q with
      | zero =>
        cases hr
        exact hname
      | succ q => exact hbefore q r (Nat.lt_of_succ_lt_succ hq) hr

theorem resolveArg_eq {w v : Nat} {arg : Text} (h : resolveArg table w arg = .ok v) : v = argValue table arg := by
  unfold resolveArg at h
  split at h
  · cases h
    rfl
  · cases h

/-- R76, R77: the arguments resolve in their order. -/
theorem resolveArgs_eq {fs : List (FieldName × Nat)} {args : List Text} {vs : List Nat}
    (h : resolveArgs table fs args = .ok vs) : vs = args.map (argValue table) := by
  induction fs generalizing args vs with
  | nil =>
    cases args with
    | nil =>
      cases h
      rfl
    | cons a as => cases h
  | cons f fs ih =>
    cases args with
    | nil => cases h
    | cons a as =>
      obtain ⟨v, hv, h⟩ := bind_eq_ok_iff.1 h
      obtain ⟨ws, hws, h⟩ := bind_eq_ok_iff.1 h
      cases h
      rw [List.map_cons, resolveArg_eq hv, ih hws]

/-- R76: the word at position `n` is that of the line at position `n`. -/
theorem encodeLine_of_encodeLines {words : List Bits} {n : Nat} {word : Bits}
    (h : encodeLines c table lines = .ok words) (hline : lines[n]? = some line) (hword : words[n]? = some word) :
    encodeLine c table line = .ok word := by
  have hn : (lines.map (encodeLine c table))[n]? = (words.map Except.ok)[n]? := by rw [encodeLines_ok h]
  rw [List.getElem?_map, List.getElem?_map, hline, hword] at hn
  exact Option.some.inj hn

/-- Settles O58: each word is the encoding of its line's resolved arguments at the first entry of the name, and cuts back into
them. -/
theorem assembledWordsAreCanonical : Obligations.AssembledWordsAreCanonical := by
  intro c start lines words hwf h
  obtain ⟨table, htable, hwords⟩ := assemble_ok h
  refine ⟨by simpa using (congrArg List.length (encodeLines_ok hwords)).symm, table, htable,
    fun n line word hline hword => ?_⟩
  have hencoded := encodeLine_of_encodeLines hwords hline hword
  obtain ⟨pl, p, s, vs, hpl, hp, hs, hvs, rfl⟩ := encodeLine_ok hencoded
  obtain ⟨hname, hfirst⟩ := findMnemonic_some hp
  have hvals := values_cutFields_encodedWord (c := c) (p := p) (s := s) (resolveArgs_inRange hvs)
  refine ⟨length_of_encodeLine hwf hencoded, pl, p, s, _, hpl, hs, hname s hs, hfirst,
    rawDecode_of_shape hs (opcode_encodedWord (position_lt hwf hs)), names_cutFields _ _ _,
    hvals.trans (resolveArgs_eq hvs), ?_⟩
  rw [hvals, encodeWord_of_shape hs]

end Sys2Proof.Machine
end
